-- ==== Sys2Proof/Word.lean ====
section
/-! DEFINITION. The word types of PXE (spec/00_scope.md R12, R14).

Every register and buffer entry is 64 bits wide (R10); the narrower types are the value types of R14. -/

namespace Sys2Proof

/-- A 64-bit register or buffer entry (R10); also a LaneValue or a PackedParity (R14). -/
abbrev Word := BitVec 64

/-- One byte lane of the window (spec/20_memory.md R55). -/
abbrev Byte := BitVec 8

/-- RowValue: "5 bits, one bit per x" (R14). -/
abbrev RowValue := BitVec 5

/-- SliceValue: "25 bits, the full (x, y) cross-section at a fixed z" (R14). -/
abbrev SliceValue := BitVec 25

end Sys2Proof
end

