-- ==== Sys2Proof/Config.lean ====
section
/-! DEFINITION. What PXE's spec leaves as a parameter or as "any value": constants with no body.

Nothing in Lean can evaluate one of these or prove a value of it, so a claim that holds, holds whatever the value is.
The parameter PXE_LATENCY (spec/00_scope.md R11) is not here: it is the schedule held in State (assumption 1). -/

namespace Sys2Proof.Config

/-- Free value: which 4 KiB page of the physical address space the register window occupies
(parameter PXE_BASE, spec/00_scope.md R11; spec/93 S4). -/
opaque windowPage : Nat

/-- PXE_BASE: "aligned to 4 KiB" (spec/20_memory.md R50). -/
def pxeBase : Nat := 4096 * windowPage

/-- Free value: `resetEntry n k` is what buffer entry number `k` holds after the reset that made draw number `n`
(spec/70 R241: "A model draws each entry as a free 64-bit value at reset and assumes no law of it"; spec/93 S1). -/
opaque resetEntry : Nat → Nat → Word

/-- Free value: `busyRead n` is the word that the data read which made draw number `n` returned while BUSY = 1
(spec/70 R245: "an unspecified 64-bit value, which a model draws freely"; spec/93 S2). -/
opaque busyRead : Nat → Word

/-- Free value: `lostRead n` is what a host sees of a read that reset kept from being accepted, at draw number `n`
(spec/70 R240 says only that such an access is not accepted; assumption 5). -/
opaque lostRead : Nat → Word

end Sys2Proof.Config
end

