-- ==== Sys2Proof/Syntax.lean ====
section
/-! DEFINITION. The ten commands of PXE (spec/00_scope.md R3, spec/opcode_table.json). -/

namespace Sys2Proof

/-- A PXE command, one constructor per row of the opcode map (spec/30_encoding.md R72).
Only PACK1 and UNPK1 have an operand, the slot index `z` (R71); every other operand is a fixed register or buffer. -/
inductive Instr where
  /-- PARS1: parity of one slice, ARG to RES (spec/40 R101). -/
  | pars1
  /-- PARSP: packed parity of L slices, SB to PK (spec/40 R102). -/
  | parsp
  /-- PARS: parity of L slices, SB to RP (spec/40 R103). -/
  | pars
  /-- PARL: sheet parity from lanes, LB to SP (spec/40 R105). -/
  | parl
  /-- PACK1 z: pack ARG into slot z of PK (spec/41 R131). -/
  | pack1 (z : Nat)
  /-- PACKA: pack RP into PK (spec/41 R133). -/
  | packa
  /-- UNPK1 z: unpack slot z of PK into RES (spec/41 R135). -/
  | unpk1 (z : Nat)
  /-- UNPKA: unpack PK into RP (spec/41 R136). -/
  | unpka
  /-- S2H: slices to sheets, RP to SP (spec/42 R161). -/
  | s2h
  /-- H2S: sheets to slices, SP to RP (spec/42 R163). -/
  | h2s
  deriving DecidableEq, Repr

end Sys2Proof
end

