-- ==== Sys2Proof/WellFormed.lean ====
section
/-! DEFINITION. Which commands can be written as a command word. -/

namespace Sys2Proof

/-- A slot operand fits the 6-bit field Z: "An assembler accepts z in 0..63 and encodes it into Z"
(spec/30_encoding.md R76). Slots 8..63 are well-formed and are rejected when the command runs (R71). -/
def slotFits (z : Nat) : Bool := decide (z < 64)

/-- A command that the encoding of spec/30_encoding.md R70 can hold. -/
def Instr.wellFormed (i : Instr) : Bool :=
  match i with
  | .pack1 z => slotFits z
  | .unpk1 z => slotFits z
  | .pars1 => true
  | .parsp => true
  | .pars => true
  | .parl => true
  | .packa => true
  | .unpka => true
  | .s2h => true
  | .h2s => true

end Sys2Proof
end

