-- ==== Sys2Proof/Decode.lean ====
section
/-! DEFINITION. Command words: decoding, encoding and the assembler spelling (spec/30_encoding.md). -/

namespace Sys2Proof

/-- Why a word or a run of bytes spells no command. Every reason a 64-bit word can give raises E_OPCODE (R73, R74). -/
inductive DecodeError where
  /-- OP is 0x0 or 0xB to 0xF (R73). -/
  | reservedOp
  /-- A bit of c[7:4] or c[63:14] is set (R74). -/
  | reservedBit
  /-- Z is not 0 on a command that has no slot (R74). -/
  | straySlot
  /-- Fewer bytes than the eight of a command word (R70: "The length is always 64 bits"). -/
  | truncated
  deriving DecidableEq, Repr

/-- OP, bits 3:0 of a command word (R70). -/
def opField (c : Word) : BitVec 4 := c.extractLsb' 0 4

/-- RSV0, bits 7:4, reserved (R70). -/
def rsv0Field (c : Word) : BitVec 4 := c.extractLsb' 4 4

/-- Z, bits 13:8, the slot index (R70, R71). -/
def slotField (c : Word) : BitVec 6 := c.extractLsb' 8 6

/-- RSV1, bits 63:14, reserved (R70). -/
def rsv1Field (c : Word) : BitVec 50 := c.extractLsb' 14 50

/-- The command an opcode names, given the slot field; none for a reserved OP (R72, R73). -/
def ofOp (op : BitVec 4) (z : Nat) : Option Instr :=
  match op.toNat with
  | 0x1 => some .pars1
  | 0x2 => some .parsp
  | 0x3 => some .pars
  | 0x4 => some .parl
  | 0x5 => some (.pack1 z)
  | 0x6 => some .packa
  | 0x7 => some (.unpk1 z)
  | 0x8 => some .unpka
  | 0x9 => some .s2h
  | 0xA => some .h2s
  | _ => none

/-- The commands that use Z (R70: "used by PACK1 and UNPK1 only"). -/
def Instr.hasSlot : Instr → Bool
  | .pack1 _ => true
  | .unpk1 _ => true
  | .pars1 => false
  | .parsp => false
  | .pars => false
  | .parl => false
  | .packa => false
  | .unpka => false
  | .s2h => false
  | .h2s => false

/-- Decoding a command word, with the first three checks of Execute in their order (R80). -/
def decode (c : Word) : Except DecodeError Instr :=
  match ofOp (opField c) (slotField c).toNat with
  | none => .error .reservedOp
  | some i =>
    if rsv0Field c ≠ 0 ∨ rsv1Field c ≠ 0 then .error .reservedBit
    else if i.hasSlot = false ∧ slotField c ≠ 0 then .error .straySlot
    else .ok i

/-- The opcode of a command (R72). -/
def Instr.op : Instr → BitVec 4
  | .pars1 => 0x1#4
  | .parsp => 0x2#4
  | .pars => 0x3#4
  | .parl => 0x4#4
  | .pack1 _ => 0x5#4
  | .packa => 0x6#4
  | .unpk1 _ => 0x7#4
  | .unpka => 0x8#4
  | .s2h => 0x9#4
  | .h2s => 0xA#4

/-- The slot operand of a command, 0 where it has none (R70). -/
def Instr.slot : Instr → Nat
  | .pack1 z => z
  | .unpk1 z => z
  | .pars1 => 0
  | .parsp => 0
  | .pars => 0
  | .parl => 0
  | .packa => 0
  | .unpka => 0
  | .s2h => 0
  | .h2s => 0

/-- The command word of a command: "PACK1 with slot z is 0x5 | (z << 8)" (R72). -/
def encode (i : Instr) : Word := i.op.setWidth 64 ||| (BitVec.ofNat 6 i.slot).setWidth 64 <<< 8

/-- The `match` column of the opcode map (R72). -/
def Instr.matchWord (i : Instr) : Word := i.op.setWidth 64

/-- The `mask` column of the opcode map (R72). -/
def Instr.mask (i : Instr) : Word :=
  if i.hasSlot then 0xFFFFFFFFFFFFC0FF#64 else 0xFFFFFFFFFFFFFFFF#64

/-- The word whose byte lanes are the given bytes, the first at the lowest address (spec/20_memory.md R55). -/
def wordOfBytes : List Byte → Word
  | [] => 0
  | b :: bs => b.setWidth 64 ||| wordOfBytes bs <<< 8

/-- Byte lane `k` of a word: bits [8k+7:8k] (spec/20_memory.md R55). -/
def byteLane (w : Word) (k : Nat) : Byte := w.extractLsb' (8 * k) 8

/-- The eight byte lanes of a word, the lowest address first (spec/20_memory.md R55). -/
def bytesOfWord (w : Word) : List Byte := (List.range 8).map (byteLane w)

/-- Decoding the command word at the head of a run of bytes; gives the bytes that follow it. -/
def decodeBytes (bs : List Byte) : Except DecodeError (Instr × List Byte) :=
  if bs.length < 8 then .error .truncated
  else
    match decode (wordOfBytes (bs.take 8)) with
    | .ok i => .ok (i, bs.drop 8)
    | .error e => .error e

/-- The opcode-table word `w` of `nbits` bits as a command word: every bit above `nbits` is 0.
None where it does not fit the one 64-bit format (R70). -/
def tableWord (nbits w : Nat) : Option Word :=
  if w % 2 ^ nbits < 2 ^ 64 then some (BitVec.ofNat 64 (w % 2 ^ nbits)) else none

/-- The command the decoder reads from an opcode-table word laid out as the hardware stores it. -/
def decodeTableWord (nbits w : Nat) : Option Instr :=
  match tableWord nbits w with
  | none => none
  | some c =>
    match decodeBytes (bytesOfWord c) with
    | .ok (i, _) => some i
    | .error _ => none

/-- The mnemonic of a command (R72). -/
def Instr.mnemonic : Instr → String
  | .pars1 => "PARS1"
  | .parsp => "PARSP"
  | .pars => "PARS"
  | .parl => "PARL"
  | .pack1 _ => "PACK1"
  | .packa => "PACKA"
  | .unpk1 _ => "UNPK1"
  | .unpka => "UNPKA"
  | .s2h => "S2H"
  | .h2s => "H2S"

/-- The assembler spelling: the mnemonic, followed for PACK1 and UNPK1 by the slot in decimal (R76). -/
def Instr.asm (i : Instr) : String :=
  if i.hasSlot then i.mnemonic ++ " " ++ toString i.slot else i.mnemonic

/-- Every command an assembler accepts (R76: "z in 0..63"). -/
def allCommands : List Instr :=
  [.pars1, .parsp, .pars, .parl, .packa, .unpka, .s2h, .h2s]
    ++ (List.range 64).map .pack1 ++ (List.range 64).map .unpk1

/-- The assembler: the command that is spelled so, if any (R76). PRESUMED (assumption 10): R76 says "a decimal number" and
not whether it may have leading zeros; this one reads a slot without them only, so `PACK1 03` spells no command. -/
def assemble (text : String) : Option Instr :=
  allCommands.find? (fun i => i.asm == text)

end Sys2Proof
end

