-- ==== Sys2Proof/Machine/Script.lean ====
section
/-! DEFINITION. What the outside world does to PXE: the names of the register window, host accesses, the host-script
statements (spec/30_encoding.md R77), and whose turn it is to move. -/

namespace Sys2Proof.Machine

/-- A register or buffer entry of the window: the operand R of a host-script statement (spec/30 R77) and a row of the
address map (spec/20_memory.md R51). -/
inductive Loc where
  | status
  | cfg
  | cmd
  | arg
  | res
  | pk
  /-- SB[z], z in [0, 64). -/
  | sb (z : Fin 64)
  /-- LB[i], i in [0, 25), i = x + 5·y. -/
  | lb (i : Fin 25)
  /-- RP[z], z in [0, 64). -/
  | rp (z : Fin 64)
  /-- SP[x], x in [0, 5). -/
  | sp (x : Fin 5)
  deriving DecidableEq, Repr

/-- One host access at byte address PXE_BASE + `off`, of `width` bytes (spec/20_memory.md R52).
`off` is any number: an offset that is not in the map is an access too (spec/60 R208). -/
inductive HostAccess where
  | read (width off : Nat)
  | write (width off : Nat) (v : Word)
  deriving DecidableEq, Repr

/-- What a host still has to do: an access, or a `sync`, which is not one access but a loop of them
(spec/30_encoding.md R77). -/
inductive HostStmt where
  | access (a : HostAccess)
  | sync
  deriving DecidableEq, Repr

/-- Who moves in a step (spec/00_scope.md R15, spec/70 R240). -/
inductive Turn where
  /-- The engine: it performs the pending command if there is one (spec/30 R79). -/
  | engine
  /-- The host: it makes its next access (spec/20 R52). -/
  | host
  /-- Reset is asserted; the host makes no access meanwhile. -/
  | reset
  /-- Reset is asserted while the host attempts its next access, which is not accepted (spec/70 R240). -/
  | resetHost
  deriving DecidableEq, Repr

/-- The offset of a register or buffer entry (spec/20_memory.md R51). -/
def Loc.offset : Loc → Nat
  | .status => 0x000
  | .cfg => 0x008
  | .cmd => 0x010
  | .arg => 0x018
  | .res => 0x020
  | .pk => 0x028
  | .sb z => 0x100 + 8 * z.val
  | .lb i => 0x300 + 8 * i.val
  | .rp z => 0x400 + 8 * z.val
  | .sp x => 0x600 + 8 * x.val

/-- The index of the lane at (x, y): "The spelling LB(x,y) is an alias for LB[x + 5·y]" (spec/30_encoding.md R77). -/
def Loc.laneIndex (x y : Fin 5) : Fin 25 := ⟨x.val + 5 * y.val, by omega⟩

/-- A host-script statement as it is written (spec/30_encoding.md R77). -/
inductive Stmt where
  | wr (r : Loc) (imm : Word)
  | rd (r : Loc)
  | cmd (i : Instr)
  | sync
  | clr
  deriving DecidableEq, Repr

/-- `wr R, imm`: one 64-bit host write (spec/30_encoding.md R77). -/
def writeStmt (r : Loc) (v : Word) : HostStmt := .access (.write 8 r.offset v)

/-- `rd R`: one 64-bit host read (spec/30_encoding.md R77). -/
def readStmt (r : Loc) : HostStmt := .access (.read 8 r.offset)

/-- The expansion of a host-script statement (spec/30_encoding.md R77). -/
def Stmt.expand : Stmt → HostStmt
  | .wr r imm => writeStmt r imm
  | .rd r => readStmt r
  | .cmd i => writeStmt .cmd (encode i)
  | .sync => .sync
  | .clr => writeStmt .status 0x2#64

/-- How a register or entry is spelled in a host script (spec/30_encoding.md R77). -/
def Loc.spelling : Loc → String
  | .status => "STATUS"
  | .cfg => "CFG"
  | .cmd => "CMD"
  | .arg => "ARG"
  | .res => "RES"
  | .pk => "PK"
  | .sb z => "SB[" ++ toString z.val ++ "]"
  | .lb i => "LB[" ++ toString i.val ++ "]"
  | .rp z => "RP[" ++ toString z.val ++ "]"
  | .sp x => "SP[" ++ toString x.val ++ "]"

/-- A word in hexadecimal with a 0x prefix (spec/30_encoding.md R77). -/
def hexText (v : Word) : String := "0x" ++ String.ofList (Nat.toDigits 16 v.toNat)

/-- How a host-script statement is written (spec/30_encoding.md R76, R77). -/
def Stmt.text : Stmt → String
  | .wr r imm => "wr " ++ r.spelling ++ ", " ++ hexText imm
  | .rd r => "rd " ++ r.spelling
  | .cmd i => "cmd " ++ i.asm
  | .sync => "sync"
  | .clr => "clr"

/-! ### Reading a host script (spec/30_encoding.md R76, R77) -/

/-- Every register and buffer entry of the window (spec/20_memory.md R51). -/
def allLocs : List Loc :=
  [.status, .cfg, .cmd, .arg, .res, .pk] ++ List.ofFn .sb ++ List.ofFn .lb ++ List.ofFn .rp ++ List.ofFn .sp

/-- The spelling LB(x,y) (spec/30_encoding.md R77). -/
def laneAlias (x y : Fin 5) : String := "LB(" ++ toString x.val ++ "," ++ toString y.val ++ ")"

/-- Every register and entry under each of its spellings. -/
def spellings : List (String × Loc) :=
  allLocs.map (fun r => (r.spelling, r)) ++
    (List.ofFn fun x : Fin 5 => List.ofFn fun y : Fin 5 => (laneAlias x y, Loc.lb (Loc.laneIndex x y))).flatten

/-- The register or entry that is spelled so, if any. -/
def readLoc (cs : List Char) : Option Loc := (spellings.find? fun e => e.1.toList == cs).map (·.2)

/-- The value of a digit, below 16. -/
def digitValue (c : Char) : Option Nat :=
  if 48 ≤ c.toNat ∧ c.toNat ≤ 57 then some (c.toNat - 48)
  else if 65 ≤ c.toNat ∧ c.toNat ≤ 70 then some (c.toNat - 55)
  else if 97 ≤ c.toNat ∧ c.toNat ≤ 102 then some (c.toNat - 87)
  else none

/-- The number that digits spell in a base, after the digits already read spelled `acc`. -/
def readDigits (base : Nat) : Nat → List Char → Option Nat
  | acc, [] => some acc
  | acc, c :: cs =>
    match digitValue c with
    | none => none
    | some d => if d < base then readDigits base (acc * base + d) cs else none

/-- The word an operand spells: "in hexadecimal with a 0x prefix or in binary with a 0b prefix"
(spec/30_encoding.md R77); none where it spells no number of 64 bits. DESIGN CHOICE (assumption 10): a prefix is
required, as R77 says, though step 9 of program P4 in spec/95 writes `wr SP[0], 0`; such a bare number spells no word. -/
def readWord (cs : List Char) : Option Word :=
  let n :=
    match cs with
    | '0' :: 'x' :: c :: ds => readDigits 16 0 (c :: ds)
    | '0' :: 'b' :: c :: ds => readDigits 2 0 (c :: ds)
    | _ => none
  match n with
  | none => none
  | some k => if k < 2 ^ 64 then some (BitVec.ofNat 64 k) else none

/-- A text cut at its first comma that a space follows, that is, not inside LB(x,y). -/
def splitOperands : List Char → Option (List Char × List Char)
  | [] => none
  | ',' :: ' ' :: cs => some ([], cs)
  | c :: cs => (splitOperands cs).map fun p => (c :: p.1, p.2)

/-- The statement a line of a host script spells, if any (spec/30_encoding.md R77). PRESUMED (assumption 10): the slot of
`cmd M z` is read in decimal, as R76 and spec/95 P2 write it, though R77 says that a statement's operands are written
with 0x or 0b, so `cmd PACK1 0x3` spells no statement; and the spacing is fixed. -/
def Stmt.read (text : String) : Option Stmt :=
  match text.toList with
  | ['s', 'y', 'n', 'c'] => some .sync
  | ['c', 'l', 'r'] => some .clr
  | 'r' :: 'd' :: ' ' :: cs => (readLoc cs).map .rd
  | 'c' :: 'm' :: 'd' :: ' ' :: cs => (assemble (String.ofList cs)).map .cmd
  | 'w' :: 'r' :: ' ' :: cs =>
    match splitOperands cs with
    | none => none
    | some (r, v) =>
      match readLoc r, readWord v with
      | some r, some v => some (.wr r v)
      | _, _ => none
  | _ => none

/-- A host program, "a sequence of host-script statements" (spec/30_encoding.md R77), from its lines. -/
def readScript : List String → Option (List Stmt)
  | [] => some []
  | line :: rest =>
    match Stmt.read line, readScript rest with
    | some s, some ss => some (s :: ss)
    | _, _ => none

end Sys2Proof.Machine
end

