-- ==== Sys2Proof/Machine/State.lean ====
section
/-! DEFINITION. The state of PXE (spec/10_state.md R20), the error codes, the ways a step can stop, and reset. -/

namespace Sys2Proof.Machine

/-- The errors PXE records (spec/60_exceptions.md R201). -/
inductive ErrCode where
  /-- E_OPCODE: the pending word matches no row of the opcode map (R202). -/
  | opcode
  /-- E_LSIZE: L > 8 on PARSP, PACKA or UNPKA (R203). -/
  | lsize
  /-- E_SLOT: z >= 8 on PACK1 or UNPK1 (R204). -/
  | slot
  /-- E_VALUE: an operand fails its validity predicate (R205). -/
  | value
  /-- E_CFG: a write of LOG2L = 7 to CFG (R206). -/
  | cfg
  /-- E_BUSY: a host write while BUSY = 1 (R207). -/
  | busy
  /-- E_ACCESS: a bad width or offset, or a write to RES (R208). -/
  | access
  deriving DecidableEq, Repr

/-- The reasons PXE stops with a fault: there are none. Every error is recorded in STATUS and the machine goes on
(spec/60_exceptions.md R200, R212), so no step raises a fault; safe, since nothing is left out by a stop. -/
inductive Fault where
  deriving DecidableEq, Repr

/-- The reasons a step gives no meaning. No arm of `exec` raises one in this model, so none is met; safe if one were. -/
inductive Refusal where
  /-- Raised only by an arm of `exec` whose instruction had no meaning yet, under its mnemonic; safe. -/
  | notModelled (mnemonic : String)
  deriving DecidableEq, Repr

/-- The machine (spec/10_state.md R20), and below it the model's own record of the outside world. -/
structure State where
  /-- STATUS.BUSY: 1 while a command is pending (R29, R32). -/
  busy : Bool
  /-- STATUS.ERR: 1 once an error has been recorded (R29). -/
  err : Bool
  /-- STATUS.ERRCODE: the code of the first error (R29). -/
  errcode : BitVec 4
  /-- CFG.LOG2L: the lane size is L = 2^LOG2L (R30). -/
  log2l : BitVec 3
  /-- CMD: the last accepted command word (R31). -/
  cmd : Word
  /-- PEND: the command word awaiting execution, meaningful only while BUSY = 1 (R32). -/
  pend : Word
  /-- ARG: the operand register (R21). -/
  arg : Word
  /-- RES: the result register (R22). -/
  res : Word
  /-- PK: the PackedParity register (R23). -/
  pk : Word
  /-- SB[z]: the slice input buffer (R24). -/
  sb : Vector Word 64
  /-- LB[x + 5·y]: the lane input buffer (R26). -/
  lb : Vector Word 25
  /-- RP[z]: the row-parity buffer (R27). -/
  rp : Vector Word 64
  /-- SP[x]: the sheet-parity buffer (R28). -/
  sp : Vector Word 5
  /-- Model: the turns still to be taken, next first; the open delay PXE_LATENCY as plain data (assumption 1). -/
  sched : List Turn
  /-- Model: what the host will still do, next first (spec/20 R58, spec/30 R77). -/
  host : List HostStmt
  /-- Model: what host reads returned, newest first (spec/30 R77). -/
  reads : List Word
  /-- Model: how many times a free value has been drawn (assumption 4). -/
  draws : Nat
  deriving DecidableEq, Repr

/-- SB as draw number `n` of a reset leaves it (spec/70 R241). -/
def drawnSb (n : Nat) : Vector Word 64 := Vector.ofFn fun z => Config.resetEntry n z.val

/-- LB as draw number `n` of a reset leaves it (spec/70 R241). -/
def drawnLb (n : Nat) : Vector Word 25 := Vector.ofFn fun i => Config.resetEntry n (64 + i.val)

/-- RP as draw number `n` of a reset leaves it (spec/70 R241). -/
def drawnRp (n : Nat) : Vector Word 64 := Vector.ofFn fun z => Config.resetEntry n (89 + z.val)

/-- SP as draw number `n` of a reset leaves it (spec/70 R241). -/
def drawnSp (n : Nat) : Vector Word 5 := Vector.ofFn fun x => Config.resetEntry n (153 + x.val)

/-- The machine right after reset (spec/10_state.md R35, spec/70 R240, R241).
The word in PEND and the model's own fields are DESIGN CHOICES (assumptions 1, 3, 4); the buffers are free values
(assumption 2). -/
def State.reset : State where
  busy := false
  err := false
  errcode := 0
  log2l := 6
  cmd := 0
  pend := 0
  arg := 0
  res := 0
  pk := 0
  sb := drawnSb 0
  lb := drawnLb 0
  rp := drawnRp 0
  sp := drawnSp 0
  sched := []
  host := []
  reads := []
  draws := 1

end Sys2Proof.Machine
end

