-- ==== Sys2Proof/Machine/Flags.lean ====
section
/-! DEFINITION. The STATUS and CFG words: where the flags and fields sit (spec/10_state.md R29, R30). -/

namespace Sys2Proof.Machine

/-- The value of an error code in STATUS.ERRCODE (spec/60_exceptions.md R201). -/
def ErrCode.code : ErrCode → BitVec 4
  | .opcode => 1
  | .lsize => 2
  | .slot => 3
  | .value => 4
  | .cfg => 5
  | .busy => 6
  | .access => 7

/-- STATUS as it reads: zext_64(ERRCODE << 4 | ERR << 1 | BUSY); reserved bits read as 0
(spec/10 R29, spec/20 R52). -/
def statusWord (s : State) : Word :=
  s.errcode.setWidth 64 <<< 4 ||| (BitVec.ofBool s.err).setWidth 64 <<< 1 ||| (BitVec.ofBool s.busy).setWidth 64

/-- CFG as it reads: zext_64(LOG2L); reserved bits read as 0 (spec/10 R30, spec/20 R52). -/
def cfgWord (s : State) : Word := s.log2l.setWidth 64

/-- The LOG2L field of a word written to CFG: bits [2:0], every other bit ignored (spec/10 R30). -/
def log2lField (v : Word) : BitVec 3 := v.extractLsb' 0 3

/-- Whether a word written to STATUS clears the error record: bit 1, every other bit ignored (spec/10 R29). -/
def clearsError (v : Word) : Bool := v.getLsbD 1

/-- Whether a word read from STATUS shows BUSY = 1 (spec/10 R29). -/
def showsBusy (v : Word) : Bool := v.getLsbD 0

end Sys2Proof.Machine
end

