-- ==== Sys2Proof/Machine/Operands.lean ====
section
/-! DEFINITION. What commands read and compute: the lane size, buffer entries by index, the validity predicates, and
the parity, packing and transposition functions. -/

namespace Sys2Proof.Machine

/-! ### Operands -/

/-- L = 2^LOG2L (spec/10_state.md R30). -/
def State.laneSize (s : State) : Nat := 2 ^ s.log2l.toNat

/-- SB[z]; 0 for an index no lane size reaches. -/
def State.sliceAt (s : State) (z : Nat) : Word := if h : z < 64 then s.sb[z] else 0

/-- LB[i]; 0 for an index the buffer does not have. -/
def State.laneAt (s : State) (i : Nat) : Word := if h : i < 25 then s.lb[i] else 0

/-- RP[z]; 0 for an index no lane size reaches. -/
def State.rowAt (s : State) (z : Nat) : Word := if h : z < 64 then s.rp[z] else 0

/-- SP[x]; 0 for an index the buffer does not have. -/
def State.sheetAt (s : State) (x : Nat) : Word := if h : x < 5 then s.sp[x] else 0

/-! ### Validity (spec/10_state.md R34) -/

/-- validRow(v) = v < 32. -/
def validRow (v : Word) : Bool := decide (v.toNat < 32)

/-- validSlice(v) = v < 2^25. -/
def validSlice (v : Word) : Bool := decide (v.toNat < 2 ^ 25)

/-- validLane(v, L) = (L = 64) or (v < 2^L). -/
def validLane (v : Word) (L : Nat) : Bool := decide (L = 64 ∨ v.toNat < 2 ^ L)

/-- Every index below `n` passes: the check loops of the pseudocode (spec/00_scope.md R13). -/
def allBelow : Nat → (Nat → Bool) → Bool
  | 0, _ => true
  | n + 1, f => allBelow n f && f n

/-- The check of PARSP and PARS: SB[z] is a SliceValue for every z in [0, L) (spec/60 R205). -/
def State.slicesValid (s : State) : Bool := allBelow s.laneSize fun z => validSlice (s.sliceAt z)

/-- The check of PARL: LB[i] is a LaneValue for every i in [0, 25) (spec/60 R205). -/
def State.lanesValid (s : State) : Bool := allBelow 25 fun i => validLane (s.laneAt i) s.laneSize

/-- The check of PACKA and S2H: RP[z] is a RowValue for every z in [0, L) (spec/60 R205). -/
def State.rowsValid (s : State) : Bool := allBelow s.laneSize fun z => validRow (s.rowAt z)

/-- The check of H2S: SP[x] is a LaneValue for every x in [0, 5) (spec/60 R205). -/
def State.sheetsValid (s : State) : Bool := allBelow 5 fun x => validLane (s.sheetAt x) s.laneSize

/-- The L limit of the bulk packed commands: L > 8 is refused (spec/60 R203). -/
def State.laneSizePacks (s : State) : Bool := decide (s.laneSize ≤ 8)

/-- The slot limit of PACK1 and UNPK1: z >= 8 is refused (spec/60 R204). -/
def slotInRange (z : Nat) : Bool := decide (z < 8)

/-! ### Extraction (spec/40_extraction.md) -/

/-- row(s, y) = s[5y+4 : 5y] (R100). -/
def sliceRow (v : SliceValue) (y : Nat) : RowValue := v.extractLsb' (5 * y) 5

/-- P(s), the XOR of the five rows of a slice (R100). -/
def sliceParity (v : SliceValue) : RowValue :=
  sliceRow v 0 ^^^ sliceRow v 1 ^^^ sliceRow v 2 ^^^ sliceRow v 3 ^^^ sliceRow v 4

/-- P(SB[z]), of the low 25 bits of the entry. -/
def State.parityAt (s : State) (z : Nat) : RowValue := sliceParity ((s.sliceAt z).setWidth 25)

/-- Q(LB)[x] = LB[x] ^ LB[x+5] ^ LB[x+10] ^ LB[x+15] ^ LB[x+20] (R104). -/
def laneParity (lane : Nat → Word) (x : Nat) : Word :=
  lane x ^^^ lane (x + 5) ^^^ lane (x + 10) ^^^ lane (x + 15) ^^^ lane (x + 20)

/-! ### Packing (spec/41_pack_unpack.md) -/

/-- The OR of `f 0 … f (n-1)`: the OR loops of the pseudocode (spec/00_scope.md R13). -/
def orBelow : Nat → (Nat → Word) → Word
  | 0, _ => 0
  | n + 1, f => orBelow n f ||| f n

/-- pack(v, z) = zext_64(v) << 5z (R130). -/
def pack (v : RowValue) (z : Nat) : Word := v.setWidth 64 <<< (5 * z)

/-- packAll([v0, ..., v(n-1)]) = pack(v0, 0) | ... | pack(v(n-1), n-1) (R132). -/
def packAll (n : Nat) (v : Nat → RowValue) : Word := orBelow n fun z => pack (v z) z

/-- unpack(w, z) = (w >> 5z) & 0x1F (R134). -/
def unpack (w : Word) (z : Nat) : Word := (w >>> (5 * z)) &&& 0x1F#64

/-! ### Axis conversion (spec/42_axis_conversion.md) -/

/-- `v[i] << k`: bit i of v, moved to bit position k (spec/00_scope.md R12). -/
def bitTo (v : Word) (i k : Nat) : Word := (BitVec.ofBool (v.getLsbD i)).setWidth 64 <<< k

/-- S2H(r, L)[x] = OR over z in [0, L) of ( r[z][x] << z ) (R160). -/
def sheetOfRows (L : Nat) (r : Nat → Word) (x : Nat) : Word := orBelow L fun z => bitTo (r z) x z

/-- H2S(s, L)[z] = OR over x in [0, 5) of ( s[x][z] << x ) (R162). -/
def rowOfSheets (sh : Nat → Word) (z : Nat) : Word := orBelow 5 fun x => bitTo (sh x) z x

end Sys2Proof.Machine
end

