-- ==== Sys2Proof/Machine/Ops.lean ====
section
/-! DEFINITION. The named operations on State: recording and clearing an error, the registers' writes, the end of an
engine step, and reset. -/

namespace Sys2Proof.Machine

/-! ### The error record: PXE's whole trap mechanism (spec/60_exceptions.md R212) -/

/-- record Error(c): the first error wins (spec/60 R211). -/
def recordError (c : ErrCode) (s : State) : State :=
  if s.err then s else { s with err := true, errcode := c.code }

/-- The clearing of the record, "the nearest thing to a trap return" (spec/60 R213). -/
def clearError (s : State) : State := { s with err := false, errcode := 0 }

/-! ### Writes -/

/-- RES <- v. -/
def setRes (v : Word) (s : State) : State := { s with res := v }

/-- PK <- v: all 64 bits (spec/41 R130). -/
def setPk (v : Word) (s : State) : State := { s with pk := v }

/-- RP[z] <- f z for z in [0, L); the entries from L on keep their values (spec/10 R27, spec/92 D9). -/
def setRows (L : Nat) (f : Nat → Word) (s : State) : State :=
  { s with rp := Vector.ofFn fun z : Fin 64 => if z.val < L then f z.val else s.rp[z.val] }

/-- SP[x] <- f x for x in [0, 5). -/
def setSheets (f : Nat → Word) (s : State) : State := { s with sp := Vector.ofFn fun x : Fin 5 => f x.val }

/-- An accepted write to CMD: CMD <- v, PEND <- v, BUSY <- 1 (spec/10 R31, spec/30 R78). -/
def issue (v : Word) (s : State) : State := { s with cmd := v, pend := v, busy := true }

/-! ### The engine step (spec/30_encoding.md R79, R80) -/

/-- BUSY <- 0. -/
def endCommand (s : State) : State := { s with busy := false }

/-- The first check that fails decides the error (spec/30 R80, spec/60 R209). -/
def firstFailing : List (Bool × ErrCode) → Option ErrCode
  | [] => none
  | (ok, c) :: rest => if ok then firstFailing rest else some c

/-- The end of an engine step: `done` if every check passes, else the error recorded in `s` and nothing else
(spec/60 R200); BUSY <- 0 in both cases (spec/30 R79). -/
def finishCommand (checks : List (Bool × ErrCode)) (s done : State) : State :=
  match firstFailing checks with
  | none => endCommand done
  | some c => endCommand (recordError c s)

/-- The engine step of a word that spells no command (spec/30 R73, R74). -/
def rejectWord (s : State) : State := endCommand (recordError .opcode s)

/-! ### Reset (spec/70_reset_and_hazards.md R240, R241) -/

/-- Reset asserted and released: every register at its reset value, every buffer entry drawn anew, a pending command
discarded. The host's script, its reads and the schedule are outside the block and stay. -/
def applyReset (s : State) : State :=
  { State.reset with
    sb := drawnSb s.draws
    lb := drawnLb s.draws
    rp := drawnRp s.draws
    sp := drawnSp s.draws
    sched := s.sched
    host := s.host
    reads := s.reads
    draws := s.draws + 1 }

/-- The host's program records a value it read (spec/30 R77). -/
def recordRead (v : Word) (s : State) : State := { s with reads := v :: s.reads }

/-- One free value has been drawn. -/
def drawOne (s : State) : State := { s with draws := s.draws + 1 }

end Sys2Proof.Machine
end

