-- ==== Sys2Proof/Machine/AxisConversion.lean ====
section
/-! DEFINITION. Axis conversion, the slice-to-sheet bit-lane permuter (spec/42_axis_conversion.md). -/

namespace Sys2Proof.Machine

/-- S2H (R161): SP[x] <- S2H([RP[0], ..., RP[L-1]], L)[x] for x in [0, 5). -/
def execS2h (s : State) : Host.Outcome State Fault Refusal :=
  .next (finishCommand [(s.rowsValid, .value)] s
    (setSheets (sheetOfRows s.laneSize s.rowAt) s))

/-- H2S (R163): RP[z] <- H2S([SP[0], ..., SP[4]], L)[z] for z in [0, L). -/
def execH2s (s : State) : Host.Outcome State Fault Refusal :=
  .next (finishCommand [(s.sheetsValid, .value)] s
    (setRows s.laneSize (rowOfSheets s.sheetAt) s))

end Sys2Proof.Machine
end

