-- ==== Sys2Proof/Machine/Extraction.lean ====
section
/-! DEFINITION. Parity extraction, the slice-parallel XOR tree (spec/40_extraction.md). -/

namespace Sys2Proof.Machine

/-- PARS1 (R101): RES <- zext_64(P(ARG[24:0])). -/
def execPars1 (s : State) : Host.Outcome State Fault Refusal :=
  .next (finishCommand [(validSlice s.arg, .value)] s
    (setRes ((sliceParity (s.arg.setWidth 25)).setWidth 64) s))

/-- PARSP (R102): PK <- packAll([P(SB[0]), ..., P(SB[L-1])]). -/
def execParsp (s : State) : Host.Outcome State Fault Refusal :=
  .next (finishCommand [(s.laneSizePacks, .lsize), (s.slicesValid, .value)] s
    (setPk (packAll s.laneSize s.parityAt) s))

/-- PARS (R103): RP[z] <- zext_64(P(SB[z])) for z in [0, L). -/
def execPars (s : State) : Host.Outcome State Fault Refusal :=
  .next (finishCommand [(s.slicesValid, .value)] s
    (setRows s.laneSize (fun z => (s.parityAt z).setWidth 64) s))

/-- PARL (R105): SP[x] <- Q(LB)[x] for x in [0, 5). -/
def execParl (s : State) : Host.Outcome State Fault Refusal :=
  .next (finishCommand [(s.lanesValid, .value)] s
    (setSheets (laneParity s.laneAt) s))

end Sys2Proof.Machine
end

