-- ==== Sys2Proof/Machine/PackUnpack.lean ====
section
/-! DEFINITION. Parity pack/unpack, the bit-slice concatenator and splitter (spec/41_pack_unpack.md). -/

namespace Sys2Proof.Machine

/-- PACK1 z (R131): PK <- pack(ARG[4:0], z). -/
def execPack1 (z : Nat) (s : State) : Host.Outcome State Fault Refusal :=
  .next (finishCommand [(slotInRange z, .slot), (validRow s.arg, .value)] s
    (setPk (pack (s.arg.setWidth 5) z) s))

/-- PACKA (R133): PK <- packAll([RP[0][4:0], ..., RP[L-1][4:0]]). -/
def execPacka (s : State) : Host.Outcome State Fault Refusal :=
  .next (finishCommand [(s.laneSizePacks, .lsize), (s.rowsValid, .value)] s
    (setPk (packAll s.laneSize fun z => (s.rowAt z).setWidth 5) s))

/-- UNPK1 z (R135): RES <- zext_64(unpack(PK, z)). -/
def execUnpk1 (z : Nat) (s : State) : Host.Outcome State Fault Refusal :=
  .next (finishCommand [(slotInRange z, .slot)] s
    (setRes (unpack s.pk z) s))

/-- UNPKA (R136): RP[z] <- zext_64(unpack(PK, z)) for z in [0, L). -/
def execUnpka (s : State) : Host.Outcome State Fault Refusal :=
  .next (finishCommand [(s.laneSizePacks, .lsize)] s
    (setRows s.laneSize (unpack s.pk) s))

end Sys2Proof.Machine
end

