-- ==== Sys2Proof/Machine/Dispatch.lean ====
section
/-! DEFINITION. One arm per command: the engine step of a decoded command (spec/30_encoding.md R79). -/

namespace Sys2Proof.Machine

def exec (i : Instr) (s : State) : Host.Outcome State Fault Refusal :=
  match i with
  | .pars1 => Sys2Proof.Machine.execPars1 s
  | .parsp => Sys2Proof.Machine.execParsp s
  | .pars => Sys2Proof.Machine.execPars s
  | .parl => Sys2Proof.Machine.execParl s
  | .pack1 z => Sys2Proof.Machine.execPack1 z s
  | .packa => Sys2Proof.Machine.execPacka s
  | .unpk1 z => Sys2Proof.Machine.execUnpk1 z s
  | .unpka => Sys2Proof.Machine.execUnpka s
  | .s2h => Sys2Proof.Machine.execS2h s
  | .h2s => Sys2Proof.Machine.execH2s s

end Sys2Proof.Machine
end

