-- ==== Sys2Proof/Machine/Window.lean ====
section
/-! DEFINITION. The register window: the address map and the host's reads and writes (spec/20_memory.md). -/

namespace Sys2Proof.Machine

/-! ### The map -/

/-- The register or entry at an offset; none for a misaligned or reserved offset (R51, R53). -/
def locate (off : Nat) : Option Loc :=
  if off % 8 ≠ 0 then none
  else if off = 0x000 then some .status
  else if off = 0x008 then some .cfg
  else if off = 0x010 then some .cmd
  else if off = 0x018 then some .arg
  else if off = 0x020 then some .res
  else if off = 0x028 then some .pk
  else if off < 0x100 then none
  else if off < 0x300 then some (.sb (Fin.ofNat 64 ((off - 0x100) / 8)))
  else if off < 0x3C8 then some (.lb (Fin.ofNat 25 ((off - 0x300) / 8)))
  else if off < 0x400 then none
  else if off < 0x600 then some (.rp (Fin.ofNat 64 ((off - 0x400) / 8)))
  else if off < 0x628 then some (.sp (Fin.ofNat 5 ((off - 0x600) / 8)))
  else none

/-- What an access reaches: nothing unless it is 64 bits wide, "at any offset" (R52). -/
def reach (width off : Nat) : Option Loc := if width = 8 then locate off else none

/-- What a register or entry holds, as it reads when it reads exactly (R52). -/
def peek (s : State) : Loc → Word
  | .status => statusWord s
  | .cfg => cfgWord s
  | .cmd => s.cmd
  | .arg => s.arg
  | .res => s.res
  | .pk => s.pk
  | .sb z => s.sb[z]
  | .lb i => s.lb[i]
  | .rp z => s.rp[z]
  | .sp x => s.sp[x]

/-- The registers that "always read exactly" (spec/70 R245). -/
def Loc.readsExactly : Loc → Bool
  | .status => true
  | .cfg => true
  | .cmd => true
  | .arg => false
  | .res => false
  | .pk => false
  | .sb _ => false
  | .lb _ => false
  | .rp _ => false
  | .sp _ => false

/-! ### Host accesses -/

/-- One host read step: the value returned and the state after (R52).
A data read while BUSY = 1 returns a free value (spec/70 R245). -/
def memRead (width off : Nat) (s : State) : Word × State :=
  match reach width off with
  | none => (0, recordError .access s)
  | some r => if s.busy && !r.readsExactly then (Config.busyRead s.draws, drawOne s) else (peek s r, s)

/-- A write that passed the access and BUSY checks (R52): CFG keeps only bits [2:0] and refuses 7, CMD issues, every
other register or entry stores all 64 bits. STATUS and RES do not come here. -/
def acceptWrite (r : Loc) (v : Word) (s : State) : State :=
  match r with
  | .status => s
  | .cfg => if log2lField v = 7 then recordError .cfg s else { s with log2l := log2lField v }
  | .cmd => issue v s
  | .arg => { s with arg := v }
  | .res => s
  | .pk => { s with pk := v }
  | .sb z => { s with sb := s.sb.set z v }
  | .lb i => { s with lb := s.lb.set i v }
  | .rp z => { s with rp := s.rp.set z v }
  | .sp x => { s with sp := s.sp.set x v }

/-- One host write step (R52, R54): E_ACCESS first, then STATUS, then E_BUSY, then the write (spec/60 R210). -/
def memWrite (width off : Nat) (v : Word) (s : State) : State :=
  match reach width off with
  | none => recordError .access s
  | some .res => recordError .access s
  | some .status => if clearsError v then clearError s else s
  | some r => if s.busy then recordError .busy s else acceptWrite r v s

/-! ### Bus addresses (R50, R55) -/

/-- The offset a byte address has in the window, if it lies in it: PXE_BASE + 0x000 to PXE_BASE + 0xFFF (R50). -/
def windowOffset (addr : Nat) : Option Nat :=
  if Config.pxeBase ≤ addr ∧ addr < Config.pxeBase + 0x1000 then some (addr - Config.pxeBase) else none

/-- A bus read as the access it is of the window; none where it does not reach PXE (R50, R64). -/
def busRead (width addr : Nat) : Option HostAccess := (windowOffset addr).map (.read width)

/-- A bus write as the access it is of the window; none where it does not reach PXE (R50, R64). -/
def busWrite (width addr : Nat) (v : Word) : Option HostAccess := (windowOffset addr).map (.write width · v)

/-- The byte lane at an offset: byte k of the word at off is at off + k and holds bits [8k+7:8k] (R55).
None where no register or entry is mapped. -/
def byteAt (s : State) (off : Nat) : Option Byte :=
  (locate (8 * (off / 8))).map fun r => byteLane (peek s r) (off % 8)

/-- The byte lane at a bus address (R50, R55). -/
def busByte (s : State) (addr : Nat) : Option Byte := (windowOffset addr).bind (byteAt s)

end Sys2Proof.Machine
end

