-- ==== Sys2Proof/Machine/HostTurn.lean ====
section
/-! DEFINITION. The host's turn and the turns under reset (spec/30_encoding.md R77, spec/70 R240). -/

namespace Sys2Proof.Machine

/-- One host access; a read's value is recorded (spec/20 R52, spec/30 R77). -/
def performAccess (a : HostAccess) (s : State) : State :=
  match a with
  | .read width off => recordRead (memRead width off s).1 (memRead width off s).2
  | .write width off v => memWrite width off v s

/-- One read of the `sync` loop, "`rd STATUS` repeated until bit 0 (BUSY) reads 0" (spec/30 R77), that showed the host
the word `v`: the statement leaves the script, whose rest is given, once bit 0 reads 0. -/
def syncOnce (v : Word) (rest : List HostStmt) (s : State) : State :=
  if showsBusy v then recordRead v s else recordRead v { s with host := rest }

/-- The host makes its next access, in the order of its script (spec/20 R58); with nothing left to do it idles. -/
def hostTurn (s : State) : State :=
  match s.host with
  | [] => s
  | .access a :: rest => performAccess a { s with host := rest }
  | .sync :: rest => syncOnce (statusWord s) rest s

/-- What becomes of the access a host attempts during reset: "Host accesses during reset are not accepted"
(spec/70 R240). A write is lost; a lost read, one of a `sync` too, shows the host a free value (assumption 5). -/
def loseAccess (s : State) : State :=
  match s.host with
  | [] => s
  | .access (.read _ _) :: rest => drawOne (recordRead (Config.lostRead s.draws) { s with host := rest })
  | .access (.write _ _ _) :: rest => { s with host := rest }
  | .sync :: rest => drawOne (syncOnce (Config.lostRead s.draws) rest s)

end Sys2Proof.Machine
end

