-- ==== Sys2Proof/Machine/Engine.lean ====
section
/-! DEFINITION. The engine's turn, and whose turn is next (spec/30_encoding.md R79, spec/70 R249). -/

namespace Sys2Proof.Machine

/-- EngineStep: enabled exactly when BUSY = 1; it performs the word in PEND (spec/30 R79, R80).
A turn in which it is not enabled passes with no effect (spec/60 R220). -/
def engineTurn (s : State) : Host.Outcome State Fault Refusal :=
  if s.busy then
    match decode s.pend with
    | .ok i => exec i s
    | .error _ => .next (rejectWord s)
  else .next s

/-- Whose turn is next: the schedule's, and once it has run out, the engine's if a command is pending (weak fairness,
spec/70 R249), else the host's (assumption 1). -/
def nextTurn (s : State) : Turn :=
  match s.sched with
  | t :: _ => t
  | [] => if s.busy then .engine else .host

/-- The schedule after the next turn. -/
def dropTurn (s : State) : State := { s with sched := s.sched.tail }

/-- PXE_LATENCY of a pending command: the number of turns before the engine's next one
(spec/00_scope.md R11, spec/70 R249). -/
def latency (s : State) : Nat := (s.sched.takeWhile (· ≠ .engine)).length

end Sys2Proof.Machine
end

