-- ==== Sys2Proof/Machine/Step.lean ====
section
/-! DEFINITION. One step of the machine: one agent's atomic move (spec/00_scope.md R15). -/

namespace Sys2Proof.Machine

/-- One step: the agent whose turn it is moves. -/
def step (s : State) : Host.Outcome State Fault Refusal :=
  match nextTurn s with
  | .engine => engineTurn (dropTurn s)
  | .host => .next (hostTurn (dropTurn s))
  | .reset => .next (applyReset (dropTurn s))
  | .resetHost => .next (applyReset (loseAccess (dropTurn s)))

/-- `s` with an opcode-table word pending and the engine's turn next: PXE fetches nothing (spec/20 R62), so a command
comes to run by being the word of an accepted CMD write (spec/30 R78), which sets CMD, PEND and BUSY (assumption 7). -/
def State.withFetchWord (s : State) (nbits w : Nat) : State :=
  { s with
    busy := true
    cmd := BitVec.ofNat 64 (w % 2 ^ nbits)
    pend := BitVec.ofNat 64 (w % 2 ^ nbits)
    sched := .engine :: s.sched }

end Sys2Proof.Machine
end

