-- ==== Sys2Proof/Safety.lean ====
section
/-! DEFINITION. What a legal state and a disciplined host are, in the terms claims use. -/

namespace Sys2Proof.Machine

/-- The invariant of PXE's registers: ERRCODE is 0 when ERR = 0 and one of the codes 1 to 7 when ERR = 1
(spec/10 R29, spec/60 R201), LOG2L is a lane size (spec/10 R30), PEND = CMD whenever BUSY = 1 (spec/10 R32), and RES
holds a RowValue (spec/10 R22, with its reset value 0). -/
abbrev State.Inv (s : State) : Prop :=
  (s.err = false → s.errcode = 0) ∧
  (s.err = true → 1 ≤ s.errcode.toNat ∧ s.errcode.toNat ≤ 7) ∧
  s.log2l.toNat ≤ 6 ∧
  (s.busy = true → s.pend = s.cmd) ∧
  s.res.toNat < 32

/-- The access issues a command when it is accepted: a 64-bit write to CMD (spec/30 R78). -/
def HostAccess.issues : HostAccess → Bool
  | .write width off _ => width == 8 && off == 0x010
  | .read _ _ => false

/-- What comes next in the script is a `sync`, or nothing. -/
def startsWithSync : List HostStmt → Bool
  | [] => true
  | .sync :: _ => true
  | .access _ :: _ => false

/-- "The host must `sync` between commands" (spec/70 R247), and before it touches the block again (spec/70 R245): a
`sync` follows every command of the script. -/
def disciplined : List HostStmt → Bool
  | [] => true
  | .sync :: rest => disciplined rest
  | .access a :: rest => (!a.issues || startsWithSync rest) && disciplined rest

/-- A host that keeps the BUSY protocol: its script is disciplined, and while a command is pending it polls. -/
abbrev State.KeepsProtocol (s : State) : Prop :=
  disciplined s.host = true ∧ (s.busy = true → startsWithSync s.host = true)

end Sys2Proof.Machine
end

