-- ==== Sys2Proof/Certificates/Slice0/Obligations.lean ====
section
/-! DEFINITION. The statements for the provers, from the numbered rules of spec/.

Helpers first, written from the rules and not from the model's own functions where the rules say it bit by bit. -/

namespace Sys2Proof.Spec

open Sys2Proof.Machine

/-- XOR_{y in [0,5)} f(y) (spec/00 R13, R16). -/
def xor5 (f : Nat → Bool) : Bool := f 0 ^^ f 1 ^^ f 2 ^^ f 3 ^^ f 4

/-- The state after an engine step that raised the error with this code: the error is recorded, the first one winning,
BUSY is cleared, and nothing else changes (spec/60 R200, R211; spec/30 R79). -/
def errored (s : State) (code : BitVec 4) : State :=
  { s with busy := false, err := true, errcode := if s.err then s.errcode else code }

/-- The state after a host access that recorded the error with this code and changed nothing else (spec/60 R211). -/
def refusedAccess (s : State) (code : BitVec 4) : State :=
  { s with err := true, errcode := if s.err then s.errcode else code }

/-- Some operand of the command with this opcode fails its predicate: the table of spec/60 R205. -/
def operandInvalid (op : Nat) (s : State) : Bool :=
  match op with
  | 1 => decide (2 ^ 25 ≤ s.arg.toNat)
  | 2 => decide (∃ z : Fin 64, z.val < 2 ^ s.log2l.toNat ∧ 2 ^ 25 ≤ s.sb[z].toNat)
  | 3 => decide (∃ z : Fin 64, z.val < 2 ^ s.log2l.toNat ∧ 2 ^ 25 ≤ s.sb[z].toNat)
  | 4 => decide (∃ i : Fin 25, 2 ^ s.log2l.toNat ≠ 64 ∧ 2 ^ 2 ^ s.log2l.toNat ≤ s.lb[i].toNat)
  | 5 => decide (32 ≤ s.arg.toNat)
  | 6 => decide (∃ z : Fin 64, z.val < 2 ^ s.log2l.toNat ∧ 32 ≤ s.rp[z].toNat)
  | 9 => decide (∃ z : Fin 64, z.val < 2 ^ s.log2l.toNat ∧ 32 ≤ s.rp[z].toNat)
  | 10 => decide (∃ x : Fin 5, 2 ^ s.log2l.toNat ≠ 64 ∧ 2 ^ 2 ^ s.log2l.toNat ≤ s.sp[x].toNat)
  | _ => false

/-- The error Execute(c, S) returns, or none: the pseudocode of spec/30 R80 on the raw bits of the word. -/
def executeError (c : Word) (s : State) : Option (BitVec 4) :=
  let op := c.toNat % 16
  let z := c.toNat / 256 % 64
  let L := 2 ^ s.log2l.toNat
  if op = 0 ∨ 10 < op then some 1
  else if c.toNat / 16 % 16 ≠ 0 ∨ c.toNat / 16384 ≠ 0 then some 1
  else if op ≠ 5 ∧ op ≠ 7 ∧ z ≠ 0 then some 1
  else if (op = 2 ∨ op = 6 ∨ op = 8) ∧ 8 < L then some 2
  else if (op = 5 ∨ op = 7) ∧ 8 ≤ z then some 3
  else if operandInvalid op s then some 4
  else none

/-- The opcode map of spec/30 R72: (match, mask) of each row. -/
def opcodeRows : List (Word × Word) :=
  [(0x1#64, 0xFFFFFFFFFFFFFFFF#64), (0x2#64, 0xFFFFFFFFFFFFFFFF#64), (0x3#64, 0xFFFFFFFFFFFFFFFF#64),
   (0x4#64, 0xFFFFFFFFFFFFFFFF#64), (0x5#64, 0xFFFFFFFFFFFFC0FF#64), (0x6#64, 0xFFFFFFFFFFFFFFFF#64),
   (0x7#64, 0xFFFFFFFFFFFFC0FF#64), (0x8#64, 0xFFFFFFFFFFFFFFFF#64), (0x9#64, 0xFFFFFFFFFFFFFFFF#64),
   (0xA#64, 0xFFFFFFFFFFFFFFFF#64)]

/-- The offsets spec/20 R51 gives an access other than "-". -/
def mapped (off : Nat) : Bool :=
  off % 8 == 0 && (decide (off < 0x030) || (decide (0x100 ≤ off) && decide (off < 0x3C8)) ||
    (decide (0x400 ≤ off) && decide (off < 0x628)))

/-- The error of a host write, the first that applies (spec/60 R210, spec/20 R52). -/
def hostWriteError (width off : Nat) (v : Word) (s : State) : Option (BitVec 4) :=
  if width ≠ 8 ∨ mapped off = false ∨ off = 0x020 then some 7
  else if off = 0x000 then none
  else if s.busy then some 6
  else if off = 0x008 ∧ v.toNat % 8 = 7 then some 5
  else none

/-- The engine is the next to move, and a command is pending. -/
def engineNext (s : State) : Prop :=
  s.busy = true ∧ (s.sched = [] ∨ ∃ rest, s.sched = .engine :: rest)

/-- Reset is asserted in the next step. -/
def resetNext (s : State) : Prop :=
  ∃ rest, s.sched = .reset :: rest ∨ s.sched = .resetHost :: rest

/-- `u` agrees with `s` on the storage the command reads (spec/20 R59), and on LOG2L where its rule reads L. -/
def sameOperands (i : Instr) (s u : State) : Prop :=
  match i with
  | .pars1 => s.arg = u.arg
  | .parsp => s.log2l = u.log2l ∧ ∀ z : Fin 64, z.val < 2 ^ s.log2l.toNat → s.sb[z] = u.sb[z]
  | .pars => s.log2l = u.log2l ∧ ∀ z : Fin 64, z.val < 2 ^ s.log2l.toNat → s.sb[z] = u.sb[z]
  | .parl => s.log2l = u.log2l ∧ s.lb = u.lb
  | .pack1 _ => s.arg = u.arg
  | .packa => s.log2l = u.log2l ∧ ∀ z : Fin 64, z.val < 2 ^ s.log2l.toNat → s.rp[z] = u.rp[z]
  | .unpk1 _ => s.pk = u.pk
  | .unpka => s.log2l = u.log2l ∧ s.pk = u.pk
  | .s2h => s.log2l = u.log2l ∧ ∀ z : Fin 64, z.val < 2 ^ s.log2l.toNat → s.rp[z] = u.rp[z]
  | .h2s => s.log2l = u.log2l ∧ s.sp = u.sp

/-- The entry is one the command writes under this LOG2L (spec/20 R59, spec/92 D9). -/
def writes (i : Instr) (log2l : Nat) (r : Loc) : Bool :=
  match i, r with
  | .pars1, .res => true
  | .parsp, .pk => true
  | .pars, .rp z => decide (z.val < 2 ^ log2l)
  | .parl, .sp _ => true
  | .pack1 _, .pk => true
  | .packa, .pk => true
  | .unpk1 _, .res => true
  | .unpka, .rp z => decide (z.val < 2 ^ log2l)
  | .s2h, .sp _ => true
  | .h2s, .rp z => decide (z.val < 2 ^ log2l)
  | _, _ => false

end Sys2Proof.Spec

open Sys2Proof Sys2Proof.Machine Sys2Proof.Spec

/-! ### Encoding -/

/-- Words written out from the opcode map (spec/30 R72) decode to their commands. -/
def Obligations.TableWordsDecode : Prop :=
  decode 0x0000000000000001#64 = .ok .pars1 ∧
  decode 0x0000000000000004#64 = .ok .parl ∧
  decode 0x0000000000000705#64 = .ok (.pack1 7) ∧
  decode 0x0000000000003F07#64 = .ok (.unpk1 63) ∧
  decode 0x000000000000000A#64 = .ok .h2s

/-- Decoding the encoding of any well-formed command gives it back, its slot included (spec/30 R70 to R72). -/
def Obligations.DecodeOfEncodeIsIdentity : Prop :=
  ∀ i : Instr, i.wellFormed = true → decode (encode i) = .ok i

/-- A word that decodes is the encoding of the command it decodes to, and that command is well-formed: one word per
command, no bit ignored (spec/30 R70 to R75). -/
def Obligations.DecodedWordIsItsEncoding : Prop :=
  ∀ (c : Word) (i : Instr), decode c = .ok i → encode i = c ∧ i.wellFormed = true

/-- spec/30 R75, an inference the spec marks as its own (from R72 to R74): every word either matches exactly one row of
the opcode map, and decodes, or its engine step raises E_OPCODE and does nothing else. -/
def Obligations.WordMatchesOneRowOrRaisesOpcode : Prop :=
  ∀ s : State, s.busy = true →
    ((∃ r ∈ opcodeRows, s.pend &&& r.2 = r.1 ∧ ∀ r' ∈ opcodeRows, s.pend &&& r'.2 = r'.1 → r' = r) ∧
      ∃ i, decode s.pend = .ok i ∧ s.pend &&& i.mask = i.matchWord) ∨
    ((∀ r ∈ opcodeRows, s.pend &&& r.2 ≠ r.1) ∧ engineTurn s = .next (errored s 1))

/-! ### Steps -/

/-- When the engine is the next to move, the step is its engine step, the turn taken off the schedule; and when the word
in PEND decodes to `i`, that is `exec i` (spec/30 R79; which turn is next is the model's schedule, assumption 1). -/
def Obligations.StepRunsDecodedCommand : Prop :=
  ∀ s : State, engineNext s →
    step s = engineTurn { s with sched := s.sched.tail } ∧
    ∀ i : Instr, decode s.pend = .ok i → step s = exec i { s with sched := s.sched.tail }

/-- A word of the opcode table placed by `withFetchWord` is the command the next step runs, with CMD and PEND holding
it and BUSY = 1 (assumption 7). -/
def Obligations.FetchWordIsTheNextCommandRun : Prop :=
  ∀ (s : State) (nbits w : Nat) (i : Instr), decodeTableWord nbits w = some i →
    step (s.withFetchWord nbits w) =
      exec i { s with busy := true, cmd := encode i, pend := encode i }

/-- Every step answers a next state: no fault and no refusal, for any word and any access (spec/30 R80, spec/60 R212).
-/
def Obligations.EveryStepAnswersNext : Prop :=
  ∀ s : State, ∃ t, step s = .next t

/-- spec/60 R220: with BUSY = 0 the engine does nothing and all state is kept, and no step but an accepted CMD write can
set BUSY. -/
def Obligations.IdleEngineWaitsForCmdWrite : Prop :=
  ∀ s : State, s.busy = false →
    engineTurn s = .next s ∧
    (∀ t, step s = .next t → t.busy = true →
      ∃ v rest, s.host = .access (.write 8 0x010 v) :: rest ∧ t.pend = v ∧ t.cmd = v)

/-- spec/60 R209, spec/30 R80: the engine step of any word reports exactly the first failing check, read off the raw
bits of the word, with no other effect; where none fails it records no error and clears BUSY. -/
def Obligations.EngineStepReportsFirstFailingCheck : Prop :=
  ∀ s : State, s.busy = true →
    match executeError s.pend s with
    | some code => engineTurn s = .next (errored s code)
    | none => ∃ t, engineTurn s = .next t ∧ t.busy = false ∧ t.err = s.err ∧ t.errcode = s.errcode

/-! ### Parity extraction -/

/-- spec/40 R101. -/
def Obligations.Pars1WritesParityOfArg : Prop :=
  decode 0x0000000000000001#64 = .ok .pars1 ∧
  ∀ s : State,
    (2 ^ 25 ≤ s.arg.toNat → exec .pars1 s = .next (errored s 4)) ∧
    (s.arg.toNat < 2 ^ 25 → ∃ t, exec .pars1 s = .next t ∧
      t = { s with res := t.res, busy := false } ∧
      t.res.toNat < 32 ∧
      ∀ x < 5, t.res.getLsbD x = xor5 fun y => s.arg.getLsbD (5 * y + x))

/-- spec/40 R102. -/
def Obligations.ParspPacksParitiesOfSlices : Prop :=
  decode 0x0000000000000002#64 = .ok .parsp ∧
  ∀ s : State,
    (8 < s.laneSize → exec .parsp s = .next (errored s 2)) ∧
    (s.laneSize ≤ 8 → (∃ z : Fin 64, z.val < s.laneSize ∧ 2 ^ 25 ≤ s.sb[z].toNat) →
      exec .parsp s = .next (errored s 4)) ∧
    (s.laneSize ≤ 8 → (∀ z : Fin 64, z.val < s.laneSize → s.sb[z].toNat < 2 ^ 25) →
      ∃ t, exec .parsp s = .next t ∧
        t = { s with pk := t.pk, busy := false } ∧
        (∀ z : Fin 64, z.val < s.laneSize → ∀ x < 5,
          t.pk.getLsbD (5 * z.val + x) = xor5 fun y => s.sb[z].getLsbD (5 * y + x)) ∧
        ∀ k, 5 * s.laneSize ≤ k → t.pk.getLsbD k = false)

/-- spec/40 R103. -/
def Obligations.ParsWritesParitiesOfSlices : Prop :=
  decode 0x0000000000000003#64 = .ok .pars ∧
  ∀ s : State,
    ((∃ z : Fin 64, z.val < s.laneSize ∧ 2 ^ 25 ≤ s.sb[z].toNat) → exec .pars s = .next (errored s 4)) ∧
    ((∀ z : Fin 64, z.val < s.laneSize → s.sb[z].toNat < 2 ^ 25) →
      ∃ t, exec .pars s = .next t ∧
        t = { s with rp := t.rp, busy := false } ∧
        (∀ z : Fin 64, z.val < s.laneSize →
          t.rp[z].toNat < 32 ∧ ∀ x < 5, t.rp[z].getLsbD x = xor5 fun y => s.sb[z].getLsbD (5 * y + x)) ∧
        ∀ z : Fin 64, s.laneSize ≤ z.val → t.rp[z] = s.rp[z])

/-- spec/40 R105; `laneAt (x + 5 * y)` is LB[x + 5·y]. -/
def Obligations.ParlWritesParitiesOfLanes : Prop :=
  decode 0x0000000000000004#64 = .ok .parl ∧
  ∀ s : State,
    ((∃ i : Fin 25, s.laneSize ≠ 64 ∧ 2 ^ s.laneSize ≤ s.lb[i].toNat) → exec .parl s = .next (errored s 4)) ∧
    ((∀ i : Fin 25, s.laneSize = 64 ∨ s.lb[i].toNat < 2 ^ s.laneSize) →
      ∃ t, exec .parl s = .next t ∧
        t = { s with sp := t.sp, busy := false } ∧
        (∀ (x : Fin 5) (z : Nat), t.sp[x].getLsbD z = xor5 fun y => (s.laneAt (x.val + 5 * y)).getLsbD z) ∧
        ∀ (x : Fin 5) (z : Nat), s.laneSize ≤ z → t.sp[x].getLsbD z = false)

/-! ### Pack and unpack -/

/-- spec/41 R131. -/
def Obligations.Pack1WritesOneSlot : Prop :=
  (∀ z < 64, decode (BitVec.ofNat 64 (0x5 + 256 * z)) = .ok (.pack1 z)) ∧
  ∀ (z : Nat) (s : State),
    (8 ≤ z → exec (.pack1 z) s = .next (errored s 3)) ∧
    (z < 8 → 32 ≤ s.arg.toNat → exec (.pack1 z) s = .next (errored s 4)) ∧
    (z < 8 → s.arg.toNat < 32 → ∃ t, exec (.pack1 z) s = .next t ∧
      t = { s with pk := t.pk, busy := false } ∧
      (∀ x < 5, t.pk.getLsbD (5 * z + x) = s.arg.getLsbD x) ∧
      ∀ k, (k < 5 * z ∨ 5 * z + 5 ≤ k) → t.pk.getLsbD k = false)

/-- spec/41 R133. -/
def Obligations.PackaPacksRows : Prop :=
  decode 0x0000000000000006#64 = .ok .packa ∧
  ∀ s : State,
    (8 < s.laneSize → exec .packa s = .next (errored s 2)) ∧
    (s.laneSize ≤ 8 → (∃ z : Fin 64, z.val < s.laneSize ∧ 32 ≤ s.rp[z].toNat) →
      exec .packa s = .next (errored s 4)) ∧
    (s.laneSize ≤ 8 → (∀ z : Fin 64, z.val < s.laneSize → s.rp[z].toNat < 32) →
      ∃ t, exec .packa s = .next t ∧
        t = { s with pk := t.pk, busy := false } ∧
        (∀ z : Fin 64, z.val < s.laneSize → ∀ x < 5, t.pk.getLsbD (5 * z.val + x) = s.rp[z].getLsbD x) ∧
        ∀ k, 5 * s.laneSize ≤ k → t.pk.getLsbD k = false)

/-- spec/41 R135. -/
def Obligations.Unpk1ReadsOneSlot : Prop :=
  (∀ z < 64, decode (BitVec.ofNat 64 (0x7 + 256 * z)) = .ok (.unpk1 z)) ∧
  ∀ (z : Nat) (s : State),
    (8 ≤ z → exec (.unpk1 z) s = .next (errored s 3)) ∧
    (z < 8 → ∃ t, exec (.unpk1 z) s = .next t ∧
      t = { s with res := t.res, busy := false } ∧
      t.res.toNat = s.pk.toNat / 2 ^ (5 * z) % 32)

/-- spec/41 R136. -/
def Obligations.UnpkaReadsSlots : Prop :=
  decode 0x0000000000000008#64 = .ok .unpka ∧
  ∀ s : State,
    (8 < s.laneSize → exec .unpka s = .next (errored s 2)) ∧
    (s.laneSize ≤ 8 → ∃ t, exec .unpka s = .next t ∧
      t = { s with rp := t.rp, busy := false } ∧
      (∀ z : Fin 64, z.val < s.laneSize → t.rp[z].toNat = s.pk.toNat / 2 ^ (5 * z.val) % 32) ∧
      ∀ z : Fin 64, s.laneSize ≤ z.val → t.rp[z] = s.rp[z])

/-! ### Axis conversion -/

/-- spec/42 R161. -/
def Obligations.S2hTransposesRows : Prop :=
  decode 0x0000000000000009#64 = .ok .s2h ∧
  ∀ s : State,
    ((∃ z : Fin 64, z.val < s.laneSize ∧ 32 ≤ s.rp[z].toNat) → exec .s2h s = .next (errored s 4)) ∧
    ((∀ z : Fin 64, z.val < s.laneSize → s.rp[z].toNat < 32) →
      ∃ t, exec .s2h s = .next t ∧
        t = { s with sp := t.sp, busy := false } ∧
        (∀ (x : Fin 5) (z : Fin 64), z.val < s.laneSize → t.sp[x].getLsbD z.val = s.rp[z].getLsbD x.val) ∧
        ∀ (x : Fin 5) (z : Nat), s.laneSize ≤ z → t.sp[x].getLsbD z = false)

/-- spec/42 R163. -/
def Obligations.H2sTransposesSheets : Prop :=
  decode 0x000000000000000A#64 = .ok .h2s ∧
  ∀ s : State,
    ((∃ x : Fin 5, s.laneSize ≠ 64 ∧ 2 ^ s.laneSize ≤ s.sp[x].toNat) → exec .h2s s = .next (errored s 4)) ∧
    ((∀ x : Fin 5, s.laneSize = 64 ∨ s.sp[x].toNat < 2 ^ s.laneSize) →
      ∃ t, exec .h2s s = .next t ∧
        t = { s with rp := t.rp, busy := false } ∧
        (∀ z : Fin 64, z.val < s.laneSize →
          t.rp[z].toNat < 32 ∧ ∀ x : Fin 5, t.rp[z].getLsbD x.val = s.sp[x].getLsbD z.val) ∧
        ∀ z : Fin 64, s.laneSize ≤ z.val → t.rp[z] = s.rp[z])

/-! ### Properties of the commands -/

/-- spec/40 R106, an inference the spec marks as its own (from R100, R104): parity is linear, of slices and of lanes,
and so the parity of a bit-disjoint decomposition into any number of parts is the XOR of the parts' parities. -/
def Obligations.ParityIsLinear : Prop :=
  sliceParity 0 = 0 ∧
  (∀ a b : SliceValue, sliceParity (a ^^^ b) = sliceParity a ^^^ sliceParity b) ∧
  (∀ parts : List SliceValue, parts.Pairwise (fun a b => a &&& b = 0) →
    sliceParity (parts.foldr (· ||| ·) 0) = parts.foldr (fun p acc => sliceParity p ^^^ acc) 0) ∧
  (∀ x, laneParity (fun _ => 0) x = 0) ∧
  (∀ (a b : Nat → Word) (x : Nat), laneParity (fun i => a i ^^^ b i) x = laneParity a x ^^^ laneParity b x) ∧
  (∀ (parts : List (Nat → Word)) (x : Nat), parts.Pairwise (fun a b => ∀ i, a i &&& b i = 0) →
    laneParity (fun i => parts.foldr (fun p acc => p i ||| acc) 0) x =
      parts.foldr (fun p acc => laneParity p x ^^^ acc) 0)

/-- spec/40 R107, an inference the spec marks as its own (from R100, R103 to R105, R161): where SB and LB hold the same
valid state, PARS followed by S2H, with RP and CFG untouched between them, leaves the same SP as PARL alone; and no
command of either run raises an error. -/
def Obligations.BothExtractionRoutesAgree : Prop :=
  ∀ s : State, s.log2l.toNat ≤ 6 →
    (∀ z : Fin 64, z.val < s.laneSize → s.sb[z].toNat < 2 ^ 25) →
    (∀ i : Fin 25, s.laneSize = 64 ∨ s.lb[i].toNat < 2 ^ s.laneSize) →
    (∀ (x y : Fin 5) (z : Fin 64), z.val < s.laneSize →
      s.sb[z].getLsbD (5 * y.val + x.val) = (s.laneAt (x.val + 5 * y.val)).getLsbD z.val) →
    ∃ t w, exec .pars s = .next t ∧ exec .parl s = .next w ∧ t.err = s.err ∧ w.err = s.err ∧
      ∀ u : State, u.rp = t.rp → u.log2l = t.log2l →
        ∃ v, exec .s2h u = .next v ∧ v.err = u.err ∧ v.sp = w.sp

/-- spec/41 R137, an inference the spec marks as its own (from R132 to R134, R136): PACKA then UNPKA, with RP, PK and
CFG untouched between them, leaves RP[0..L-1] as it was, for every L of at most 8; and PARSP then UNPKA leaves in RP[z]
the parity of SB[z]. -/
def Obligations.UnpackOfPackIsIdentity : Prop :=
  ∀ s : State, s.laneSize ≤ 8 →
    ((∀ z : Fin 64, z.val < s.laneSize → s.rp[z].toNat < 32) →
      ∃ t, exec .packa s = .next t ∧
        ∀ u : State, u.rp = t.rp → u.pk = t.pk → u.log2l = t.log2l →
          ∃ v, exec .unpka u = .next v ∧ v.rp = s.rp) ∧
    ((∀ z : Fin 64, z.val < s.laneSize → s.sb[z].toNat < 2 ^ 25) →
      ∃ t, exec .parsp s = .next t ∧
        ∀ u : State, u.pk = t.pk → u.log2l = t.log2l →
          ∃ v, exec .unpka u = .next v ∧
            ∀ z : Fin 64, z.val < s.laneSize →
              v.rp[z].toNat < 32 ∧ ∀ x < 5, v.rp[z].getLsbD x = xor5 fun y => s.sb[z].getLsbD (5 * y + x))

/-- spec/41 R138, an inference the spec marks as its own (from R130, R131, R134, R135): what PACK1 z packs, UNPK1 z
unpacks, and UNPK1 of any other slot below 8 gives 0; from slot 8 on UNPK1 raises E_SLOT. -/
def Obligations.UnpackOfOneSlotPacked : Prop :=
  ∀ (s : State) (z z' : Nat), z < 8 → s.arg.toNat < 32 →
    ∃ t, exec (.pack1 z) s = .next t ∧
      ∀ u : State, u.pk = t.pk →
        (z' < 8 → ∃ v, exec (.unpk1 z') u = .next v ∧ v.res = if z' = z then s.arg else 0) ∧
        (8 ≤ z' → exec (.unpk1 z') u = .next (errored u 3))

/-- spec/42 R164, an inference the spec marks as its own (from R160 to R163): the two conversions undo each other, in
both orders, for every lane size. -/
def Obligations.AxisConversionsAreInverse : Prop :=
  ∀ s : State, s.log2l.toNat ≤ 6 →
    ((∀ z : Fin 64, z.val < s.laneSize → s.rp[z].toNat < 32) →
      ∃ t, exec .s2h s = .next t ∧
        ∀ u : State, u.rp = t.rp → u.sp = t.sp → u.log2l = t.log2l →
          ∃ v, exec .h2s u = .next v ∧ v.err = u.err ∧ v.rp = s.rp) ∧
    ((∀ x : Fin 5, s.laneSize = 64 ∨ s.sp[x].toNat < 2 ^ s.laneSize) →
      ∃ t, exec .h2s s = .next t ∧
        ∀ u : State, u.rp = t.rp → u.sp = t.sp → u.log2l = t.log2l →
          ∃ v, exec .s2h u = .next v ∧ v.err = u.err ∧ v.sp = s.sp)

/-- A command's result depends on nothing but the registers and entries its rule lists, and LOG2L (spec/20 R65, an
inference the spec marks as its own, from R59 and the family rules): from two states that agree on those and hold no
error, the same error or none is raised, and where none is, every entry the command writes comes out the same. -/
def Obligations.CommandReadsOnlyItsOperands : Prop :=
  ∀ (i : Instr) (s u s' u' : State), sameOperands i s u → s.err = false → u.err = false → s.errcode = u.errcode →
    exec i s = .next s' → exec i u = .next u' →
    s'.err = u'.err ∧ s'.errcode = u'.errcode ∧
      (s'.err = false → ∀ r : Loc, writes i s.log2l.toNat r = true → peek s' r = peek u' r)

/-- A command changes no register or entry but those it writes and STATUS, nor any byte of the window outside them; the
model's own fields and PEND stay too (spec/20 R59, spec/92 D9). -/
def Obligations.CommandChangesOnlyItsDestination : Prop :=
  ∀ (i : Instr) (s t : State), exec i s = .next t →
    (∀ r : Loc, writes i s.log2l.toNat r = false → r ≠ .status → peek t r = peek s r) ∧
    (∀ off : Nat, (∀ r : Loc, writes i s.log2l.toNat r = true ∨ r = .status → off < r.offset ∨ r.offset + 8 ≤ off) →
      byteAt t off = byteAt s off) ∧
    t.pend = s.pend ∧ t.sched = s.sched ∧ t.host = s.host ∧ t.reads = s.reads ∧ t.draws = s.draws

/-- Every RP entry a command changes comes out a RowValue and every SP entry a LaneValue of the lane size in force
(spec/10 R27, R28). -/
def Obligations.CommandsWriteValidParities : Prop :=
  ∀ (i : Instr) (s t : State), exec i s = .next t →
    (∀ z : Fin 64, t.rp[z] ≠ s.rp[z] → z.val < s.laneSize ∧ t.rp[z].toNat < 32) ∧
    (∀ x : Fin 5, t.sp[x] ≠ s.sp[x] → ∀ k, s.laneSize ≤ k → t.sp[x].getLsbD k = false)

/-- The error record changes no result: from states that differ in ERR and ERRCODE alone, a command leaves states that
differ in ERR and ERRCODE alone ("later commands are still accepted and performed normally", spec/60 R212). -/
def Obligations.ErrorRecordChangesNoResult : Prop :=
  ∀ (i : Instr) (s : State) (e : Bool) (c : BitVec 4),
    ∃ t t', exec i s = .next t ∧ exec i { s with err := e, errcode := c } = .next t' ∧
      t' = { t with err := t'.err, errcode := t'.errcode }

/-! ### Invariant and reset -/

/-- Every step, of either agent or of reset, keeps the invariant: ERRCODE 0 or 1 to 7 as ERR says, LOG2L a lane size,
PEND = CMD while BUSY = 1, RES a RowValue. -/
def Obligations.EveryStepKeepsInvariant : Prop :=
  ∀ s t : State, s.Inv → step s = .next t → t.Inv

/-- The state after reset meets the invariant. -/
def Obligations.ResetMeetsInvariant : Prop := State.reset.Inv

/-- spec/70 R240: reset, from any state, gives every register its reset value; a pending command is discarded; and an
access that a host attempts meanwhile is not accepted, so nothing of the block changes by it. -/
def Obligations.ResetGivesStatedValues : Prop :=
  (State.reset.busy = false ∧ State.reset.err = false ∧ State.reset.errcode = 0 ∧ State.reset.log2l = 6 ∧
    State.reset.cmd = 0 ∧ State.reset.arg = 0 ∧ State.reset.res = 0 ∧ State.reset.pk = 0) ∧
  ∀ s : State,
    ((applyReset s).busy = false ∧ (applyReset s).err = false ∧ (applyReset s).errcode = 0 ∧
      (applyReset s).log2l = 6 ∧ (applyReset s).cmd = 0 ∧ (applyReset s).arg = 0 ∧ (applyReset s).res = 0 ∧
      (applyReset s).pk = 0) ∧
    loseAccess s = { s with
      host := (loseAccess s).host, reads := (loseAccess s).reads, draws := (loseAccess s).draws }

/-- A turn in which reset is asserted, with or without an access attempted, leaves the registers as they are at reset
and every buffer entry a value drawn anew (spec/70 R241): a free value of Config under a draw number this run has not
used before, one for each of the 158 entries. Reset as a turn of the schedule, and the host's script and reads kept
through it, are the model's form (assumptions 1, 2, 5). -/
def Obligations.ResetDrawsBuffersAnew : Prop :=
  ∀ s : State, resetNext s → ∃ t n, step s = .next t ∧ s.draws ≤ n ∧ n < t.draws ∧
    t = { State.reset with
      sb := t.sb, lb := t.lb, rp := t.rp, sp := t.sp
      sched := s.sched.tail, host := t.host, reads := t.reads, draws := t.draws } ∧
    (∀ z : Fin 64, t.sb[z] = Config.resetEntry n z.val) ∧
    (∀ i : Fin 25, t.lb[i] = Config.resetEntry n (64 + i.val)) ∧
    (∀ z : Fin 64, t.rp[z] = Config.resetEntry n (89 + z.val)) ∧
    (∀ x : Fin 5, t.sp[x] = Config.resetEntry n (153 + x.val))

/-! ### Errors -/

/-- spec/60 R211: recording an error sets ERR and ERRCODE if ERR = 0 and changes nothing if ERR = 1; and ERR, once set,
keeps its code through every step but reset and a host write to STATUS with bit 1 set. -/
def Obligations.ErrorRecordIsSticky : Prop :=
  (∀ (c : ErrCode) (s : State),
    (s.err = false → recordError c s = { s with err := true, errcode := c.code }) ∧
    (s.err = true → recordError c s = s)) ∧
  ∀ s t : State, s.err = true → step s = .next t →
    (t.err = true ∧ t.errcode = s.errcode) ∨ resetNext s ∨
    (∃ v rest, s.host = .access (.write 8 0x000 v) :: rest ∧ v.getLsbD 1 = true ∧ t.err = false ∧ t.errcode = 0)

/-! ### The register window -/

/-- spec/60 R213, spec/10 R29: how STATUS reads, bit by bit; a write to it with bit 1 set clears ERR and ERRCODE and
restores nothing else, any other write does nothing, BUSY or not; and a second error while ERR = 1 leaves its code
unrecorded. -/
def Obligations.StatusReadsFieldsAndClears : Prop :=
  ∀ s : State,
    ((memRead 8 0x000 s).2 = s ∧
      (memRead 8 0x000 s).1.getLsbD 0 = s.busy ∧ (memRead 8 0x000 s).1.getLsbD 1 = s.err ∧
      (∀ k < 4, (memRead 8 0x000 s).1.getLsbD (4 + k) = s.errcode.getLsbD k) ∧
      (∀ k, (k = 2 ∨ k = 3 ∨ 8 ≤ k) → (memRead 8 0x000 s).1.getLsbD k = false)) ∧
    ∀ v : Word,
      (v.getLsbD 1 = true → memWrite 8 0x000 v s = { s with err := false, errcode := 0 }) ∧
      (v.getLsbD 1 = false → memWrite 8 0x000 v s = s) ∧
      (s.err = true → ∀ c : ErrCode, recordError c s = s)

/-- spec/10 R30, spec/60 R206: a write to CFG keeps bits [2:0] alone, 7 is refused with E_CFG, and a read gives LOG2L.
-/
def Obligations.CfgWriteSetsLaneSizeOrIsRefused : Prop :=
  ∀ (s : State) (v : Word),
    (memRead 8 0x008 s).2 = s ∧ (memRead 8 0x008 s).1.toNat = s.log2l.toNat ∧ s.laneSize = 2 ^ s.log2l.toNat ∧
    (s.busy = true → memWrite 8 0x008 v s = refusedAccess s 6) ∧
    (s.busy = false → v.toNat % 8 = 7 → memWrite 8 0x008 v s = refusedAccess s 5) ∧
    (s.busy = false → v.toNat % 8 ≠ 7 → memWrite 8 0x008 v s = { s with log2l := BitVec.ofNat 3 (v.toNat % 8) })

/-- spec/30 R78: a write to CMD issues its word undecoded, and an illegal word raises E_OPCODE at its engine step; a
write while BUSY = 1 is refused with E_BUSY. -/
def Obligations.CmdWriteIssuesOrIsRefused : Prop :=
  ∀ (s : State) (v : Word),
    (s.busy = false → memWrite 8 0x010 v s = { s with cmd := v, pend := v, busy := true } ∧
      ((∀ r ∈ opcodeRows, v &&& r.2 ≠ r.1) →
        engineTurn (memWrite 8 0x010 v s) = .next (errored { s with cmd := v, pend := v } 1))) ∧
    (s.busy = true → memWrite 8 0x010 v s = refusedAccess s 6) ∧
    memRead 8 0x010 s = (s.cmd, s)

/-- spec/20 R54: a write to RES records E_ACCESS and leaves RES unchanged, BUSY or not. -/
def Obligations.ResIsReadOnly : Prop :=
  ∀ (s : State) (v : Word), memWrite 8 0x020 v s = refusedAccess s 7 ∧ (memWrite 8 0x020 v s).res = s.res

/-- spec/60 R208: E_ACCESS in its four cases, a bad width, a misaligned offset, an offset not in the map, a write to
RES; a rejected write changes nothing else and a rejected read returns 0. -/
def Obligations.BadAccessRecordsAccessError : Prop :=
  ∀ (s : State) (width off : Nat) (v : Word),
    (width ≠ 8 ∨ off % 8 ≠ 0 ∨ mapped off = false →
      memWrite width off v s = refusedAccess s 7 ∧ memRead width off s = (0, refusedAccess s 7)) ∧
    (width = 8 → off = 0x020 → memWrite width off v s = refusedAccess s 7)

/-- spec/60 R207: while BUSY = 1 a write to CFG, CMD, ARG, PK or any buffer entry is dropped with E_BUSY; STATUS is
exempt. -/
def Obligations.BusyWritesAreDropped : Prop :=
  ∀ (s : State) (v : Word), s.busy = true →
    (∀ r : Loc, r ≠ .status → r ≠ .res → memWrite 8 r.offset v s = refusedAccess s 6) ∧
    (v.getLsbD 1 = true → memWrite 8 Loc.status.offset v s = { s with err := false, errcode := 0 })

/-- spec/70 R245: while BUSY = 1 a read of ARG, RES, PK or a buffer entry returns a free value, whatever the register
holds, and records no error; STATUS, CFG and CMD read exactly. Holds for every value of the free read. -/
def Obligations.BusyDataReadsAreFree : Prop :=
  ∀ s : State, s.busy = true →
    (∀ r : Loc, r ≠ .status → r ≠ .cfg → r ≠ .cmd →
      memRead 8 r.offset s = (Config.busyRead s.draws, { s with draws := s.draws + 1 })) ∧
    memRead 8 0x000 s = (statusWord s, s) ∧ (memRead 8 0x008 s).1.toNat = s.log2l.toNat ∧
    (memRead 8 0x008 s).2 = s ∧ memRead 8 0x010 s = (s.cmd, s)

/-- With BUSY = 0, a 64-bit write to ARG, PK or a buffer entry stores all 64 bits in that one, where the next command
finds them and a read gives them back, and changes nothing else: no other register or entry, no byte of the window
outside it, no field of State but those of ARG, PK and the buffers (spec/20 R52, R57; spec/10 R21, R23; spec/70
R248). -/
def Obligations.IdleWriteStoresInOneEntry : Prop :=
  ∀ (s : State) (v : Word) (r : Loc), s.busy = false → r ≠ .status → r ≠ .cfg → r ≠ .cmd → r ≠ .res →
    peek (memWrite 8 r.offset v s) r = v ∧
    memRead 8 r.offset (memWrite 8 r.offset v s) = (v, memWrite 8 r.offset v s) ∧
    (∀ r' : Loc, r' ≠ r → peek (memWrite 8 r.offset v s) r' = peek s r') ∧
    (∀ off : Nat, off < r.offset ∨ r.offset + 8 ≤ off → byteAt (memWrite 8 r.offset v s) off = byteAt s off) ∧
    memWrite 8 r.offset v s = { s with
      arg := (memWrite 8 r.offset v s).arg, pk := (memWrite 8 r.offset v s).pk
      sb := (memWrite 8 r.offset v s).sb, lb := (memWrite 8 r.offset v s).lb
      rp := (memWrite 8 r.offset v s).rp, sp := (memWrite 8 r.offset v s).sp } ∧
    memWrite 8 r.offset v (memWrite 8 r.offset v s) = memWrite 8 r.offset v s

/-- With BUSY = 0 a 64-bit read of any register or entry, RES among them, returns what it holds and changes nothing
("otherwise return the register or entry at off", spec/20 R52); and so does every read of the state an engine step
leaves, which holds the command's results (spec/20 R60, spec/70 R248). -/
def Obligations.IdleReadsAreExact : Prop :=
  ∀ s : State,
    (s.busy = false →
      (∀ r : Loc, memRead 8 r.offset s = (peek s r, s)) ∧
      memRead 8 0x000 s = (statusWord s, s) ∧ memRead 8 0x008 s = (s.log2l.setWidth 64, s) ∧
      memRead 8 0x010 s = (s.cmd, s) ∧ memRead 8 0x018 s = (s.arg, s) ∧
      memRead 8 0x020 s = (s.res, s) ∧ memRead 8 0x028 s = (s.pk, s) ∧
      (∀ z : Fin 64, memRead 8 (0x100 + 8 * z.val) s = (s.sb[z], s)) ∧
      (∀ i : Fin 25, memRead 8 (0x300 + 8 * i.val) s = (s.lb[i], s)) ∧
      (∀ z : Fin 64, memRead 8 (0x400 + 8 * z.val) s = (s.rp[z], s)) ∧
      (∀ x : Fin 5, memRead 8 (0x600 + 8 * x.val) s = (s.sp[x], s))) ∧
    ∀ t : State, engineTurn s = .next t → ∀ r : Loc, memRead 8 r.offset t = (peek t r, t)

/-- spec/60 R210: a host access reports at most one error, the first of E_ACCESS, E_BUSY, E_CFG; a write to STATUS
never raises E_BUSY; a read raises only E_ACCESS. -/
def Obligations.HostAccessReportsFirstFailingCheck : Prop :=
  ∀ (s : State) (width off : Nat) (v : Word),
    (match hostWriteError width off v s with
      | some code => memWrite width off v s = refusedAccess s code
      | none => ((memWrite width off v s).err = s.err ∧ (memWrite width off v s).errcode = s.errcode) ∨
          (off = 0x000 ∧ (memWrite width off v s).err = false ∧ (memWrite width off v s).errcode = 0)) ∧
    (if width ≠ 8 ∨ mapped off = false then (memRead width off s).2 = refusedAccess s 7
      else (memRead width off s).2.err = s.err ∧ (memRead width off s).2.errcode = s.errcode)

/-- A read changes nothing of the block: it records E_ACCESS on an unmapped or misaligned offset or a bad width, and
else leaves every register and entry as it was, drawing at most one free value (spec/20 R57). -/
def Obligations.ReadsHaveNoSideEffect : Prop :=
  ∀ (s : State) (width off : Nat),
    (memRead width off s).2 = { s with draws := (memRead width off s).2.draws } ∨
    ((width ≠ 8 ∨ mapped off = false) ∧ (memRead width off s).2 = refusedAccess s 7)

/-- spec/20 R53: the mapped offsets are exactly those of the map of R51, each entry at the offset the map gives; an
access to any other records E_ACCESS, changes nothing else, and reads 0. -/
def Obligations.AddressMapIsExact : Prop :=
  (Loc.status.offset = 0x000 ∧ Loc.cfg.offset = 0x008 ∧ Loc.cmd.offset = 0x010 ∧ Loc.arg.offset = 0x018 ∧
    Loc.res.offset = 0x020 ∧ Loc.pk.offset = 0x028 ∧
    (∀ z : Fin 64, (Loc.sb z).offset = 0x100 + 8 * z.val) ∧ (∀ i : Fin 25, (Loc.lb i).offset = 0x300 + 8 * i.val) ∧
    (∀ z : Fin 64, (Loc.rp z).offset = 0x400 + 8 * z.val) ∧ (∀ x : Fin 5, (Loc.sp x).offset = 0x600 + 8 * x.val)) ∧
  (∀ (off : Nat) (r : Loc), locate off = some r ↔ off = r.offset) ∧
  (∀ off : Nat, locate off = none ↔ mapped off = false) ∧
  ∀ (off : Nat) (v : Word) (s : State), mapped off = false →
    memWrite 8 off v s = refusedAccess s 7 ∧ memRead 8 off s = (0, refusedAccess s 7)

/-- Byte k of the word at offset off is at PXE_BASE + off + k and holds bits [8k+7:8k], whatever PXE_BASE is
(spec/20 R55, R50); and no byte is at a mapped word's neighbour that is not mapped. -/
def Obligations.WindowIsLittleEndian : Prop :=
  (∀ (s : State) (r : Loc) (k : Nat), k < 8 →
    busByte s (Config.pxeBase + r.offset + k) = some ((peek s r).extractLsb' (8 * k) 8)) ∧
  (∀ (s : State) (off : Nat), off < 0x1000 → mapped (8 * (off / 8)) = false →
    busByte s (Config.pxeBase + off) = none)

/-- A bus access at PXE_BASE + off, for off below 0x1000, is the window's access at off; one outside the 4 KiB window
does not reach PXE, whatever PXE_BASE is, which is aligned to 4 KiB (spec/20 R50; assumption 6). -/
def Obligations.BusReachesWindowOnly : Prop :=
  Config.pxeBase % 4096 = 0 ∧
  (∀ width off : Nat, off < 0x1000 → busRead width (Config.pxeBase + off) = some (.read width off)) ∧
  (∀ (width off : Nat) (v : Word), off < 0x1000 →
    busWrite width (Config.pxeBase + off) v = some (.write width off v)) ∧
  (∀ (width addr : Nat) (v : Word), addr < Config.pxeBase ∨ Config.pxeBase + 0x1000 ≤ addr →
    busRead width addr = none ∧ busWrite width addr v = none)

/-- The host's turn makes exactly the next access of its script, in order, and records what a read returned
(spec/20 R58, spec/30 R77). -/
def Obligations.HostTurnMakesNextAccess : Prop :=
  ∀ (s : State) (sch : List Turn) (rest : List HostStmt), s.sched = .host :: sch →
    (∀ width off, s.host = .access (.read width off) :: rest →
      step s = .next { (memRead width off { s with sched := sch, host := rest }).2 with
        reads := (memRead width off s).1 :: s.reads }) ∧
    (∀ width off v, s.host = .access (.write width off v) :: rest →
      step s = .next (memWrite width off v { s with sched := sch, host := rest }))

/-- `sync` reads STATUS until BUSY reads 0: while BUSY = 1 a turn of it records a STATUS word and leaves it to be done
again; with BUSY = 0 it records one and is done (spec/30 R77, spec/20 R60). -/
def Obligations.SyncPollsUntilIdle : Prop :=
  ∀ (s : State) (sch : List Turn) (rest : List HostStmt), s.sched = .host :: sch → s.host = .sync :: rest →
    step s = .next { s with
      sched := sch
      host := if s.busy then .sync :: rest else rest
      reads := statusWord s :: s.reads }

/-! ### The BUSY protocol -/

/-- spec/20 R62: while BUSY stays 1 no step changes the pending command; nor does it change any register or buffer
entry, so nothing but the error record and the outside world moves. -/
def Obligations.PendingCommandIsFrozen : Prop :=
  ∀ s t : State, s.busy = true → step s = .next t → t.busy = true →
    t = { s with
      err := t.err, errcode := t.errcode, sched := t.sched, host := t.host, reads := t.reads, draws := t.draws }

/-- The pending command is performed after a finite delay, whatever the schedule (spec/70 R249): if only host turns come
before the engine's, then after that many steps the command is still pending on unchanged operands, and the next step
is its engine step, which leaves BUSY = 0. The schedule is the model's form of PXE_LATENCY (assumption 1). -/
def Obligations.PendingCommandRunsAfterItsLatency : Prop :=
  ∀ s : State, s.busy = true → (∀ a ∈ s.sched.takeWhile (· ≠ .engine), a = .host) →
    ∃ u v : State, core.run (latency s) s = .next u ∧
      u = { s with
        err := u.err, errcode := u.errcode, sched := u.sched, host := u.host, reads := u.reads, draws := u.draws } ∧
      engineNext u ∧ step u = .next v ∧ v.busy = false ∧ core.run (latency s + 1) s = .next v

/-- spec/70 R247: a second CMD write without a `sync` is lost, with E_BUSY, if the first command's engine step has not
happened yet, and is accepted if it has; the model admits both. -/
def Obligations.SecondCommandIsLostOrAccepted : Prop :=
  ∀ (s : State) (a b : Word) (rest : List HostStmt) (sch : List Turn), s.busy = false → s.err = false →
    s.host = .access (.write 8 0x010 a) :: .access (.write 8 0x010 b) :: rest →
    (s.sched = .host :: .host :: sch → ∃ t, core.run 2 s = .next t ∧
      t.busy = true ∧ t.pend = a ∧ t.cmd = a ∧ t.err = true ∧ t.errcode = 6) ∧
    (s.sched = .host :: .engine :: .host :: sch → ∃ t, core.run 3 s = .next t ∧
      t.busy = true ∧ t.pend = b ∧ t.cmd = b)

/-- A host that puts a `sync` after every command never loses an access to E_BUSY, whatever the schedule, and every
value it reads is exact: no free read is drawn except by reset (spec/70 R245 to R248). -/
def Obligations.SyncDisciplineAvoidsBusy : Prop :=
  ∀ s t : State, s.KeepsProtocol → step s = .next t →
    t.KeepsProtocol ∧
    (t.err = true → t.errcode = 6 → s.err = true ∧ s.errcode = 6) ∧
    (resetNext s ∨ t.draws = s.draws)
end

