-- ==== Sys2Proof/Laws/Decode.lean ====
section
/-! SUPPORT. The fields of a command word, and the byte lanes of a word. -/

namespace Sys2Proof

/-- The command word with the given OP and Z and every reserved bit 0 (spec/30 R70). -/
def wordOf (op : BitVec 4) (z : BitVec 6) : Word := op.setWidth 64 ||| z.setWidth 64 <<< 8

theorem encode_eq_wordOf (i : Instr) : encode i = wordOf i.op (BitVec.ofNat 6 i.slot) := rfl

theorem wordOf_getLsbD (op : BitVec 4) (z : BitVec 6) (k : Nat) :
    (wordOf op z).getLsbD k = (op.getLsbD k || (decide (8 ≤ k) && z.getLsbD (k - 8))) := by
  by_cases h : k < 64
  · by_cases h8 : k < 8
    · simp [wordOf, h, h8]
    · simp [wordOf, h, h8, show 8 ≤ k by omega]
  · rw [BitVec.getLsbD_of_ge _ _ (by omega), BitVec.getLsbD_of_ge op _ (by omega),
      BitVec.getLsbD_of_ge z _ (by omega)]
    simp

@[simp] theorem opField_wordOf (op : BitVec 4) (z : BitVec 6) : opField (wordOf op z) = op := by
  apply BitVec.eq_of_getLsbD_eq
  intro k hk
  simp [opField, wordOf_getLsbD, hk, show ¬ 8 ≤ k by omega]

@[simp] theorem rsv0Field_wordOf (op : BitVec 4) (z : BitVec 6) : rsv0Field (wordOf op z) = 0 := by
  apply BitVec.eq_of_getLsbD_eq
  intro k hk
  simp only [rsv0Field, BitVec.getLsbD_extractLsb', wordOf_getLsbD]
  rw [BitVec.getLsbD_of_ge op _ (by omega)]
  simp [show ¬ 8 ≤ 4 + k by omega]

@[simp] theorem slotField_wordOf (op : BitVec 4) (z : BitVec 6) : slotField (wordOf op z) = z := by
  apply BitVec.eq_of_getLsbD_eq
  intro k hk
  simp only [slotField, BitVec.getLsbD_extractLsb', wordOf_getLsbD]
  rw [BitVec.getLsbD_of_ge op _ (by omega)]
  simp [hk]

@[simp] theorem rsv1Field_wordOf (op : BitVec 4) (z : BitVec 6) : rsv1Field (wordOf op z) = 0 := by
  apply BitVec.eq_of_getLsbD_eq
  intro k hk
  simp only [rsv1Field, BitVec.getLsbD_extractLsb', wordOf_getLsbD]
  rw [BitVec.getLsbD_of_ge op _ (by omega), BitVec.getLsbD_of_ge z _ (by omega)]
  simp

/-- A word whose reserved bits are 0 is made of its OP and Z. -/
theorem wordOf_fields {c : Word} (h0 : rsv0Field c = 0) (h1 : rsv1Field c = 0) :
    wordOf (opField c) (slotField c) = c := by
  apply BitVec.eq_of_getLsbD_eq
  intro k hk
  have e0 := congrArg (fun v => v.getLsbD (k - 4)) h0
  have e1 := congrArg (fun v => v.getLsbD (k - 14)) h1
  simp only [rsv0Field, rsv1Field, BitVec.getLsbD_extractLsb'] at e0 e1
  simp only [wordOf_getLsbD, opField, slotField, BitVec.getLsbD_extractLsb']
  by_cases h4 : k < 4
  · simp [h4, show ¬ 8 ≤ k by omega]
  · by_cases h8 : k < 8
    · have : c.getLsbD k = false := by simpa [show k - 4 < 4 by omega, show 4 + (k - 4) = k by omega] using e0
      simp [h4, this, show ¬ 8 ≤ k by omega]
    · by_cases h14 : k < 14
      · simp [h4, show k - 8 < 6 by omega, show 8 ≤ k by omega, show 8 + (k - 8) = k by omega]
      · have : c.getLsbD k = false := by
          simpa [show k - 14 < 50 by omega, show 14 + (k - 14) = k by omega] using e1
        simp [h4, this, show ¬ k - 8 < 6 by omega]

/-- Decoding succeeds exactly on a defined OP with no stray bit (spec/30 R80). -/
theorem decode_eq_ok_iff (c : Word) (i : Instr) :
    decode c = .ok i ↔
      ofOp (opField c) (slotField c).toNat = some i ∧ rsv0Field c = 0 ∧ rsv1Field c = 0 ∧
        (i.hasSlot = true ∨ slotField c = 0) := by
  unfold decode
  cases ofOp (opField c) (slotField c).toNat with
  | none => simp
  | some j =>
    dsimp only
    split
    · rename_i h
      simp only [reduceCtorEq, Option.some.injEq, false_iff]
      rintro ⟨-, h0, h1, -⟩
      exact h.elim (· h0) (· h1)
    · rename_i h
      push Not at h
      split
      · rename_i h'
        simp only [reduceCtorEq, Option.some.injEq, false_iff]
        rintro ⟨rfl, -, -, hs⟩
        rcases hs with hs | hs
        · simp [h'.1] at hs
        · exact h'.2 hs
      · rename_i h'
        simp only [Except.ok.injEq, Option.some.injEq]
        constructor
        · rintro rfl
          refine ⟨rfl, h.1, h.2, ?_⟩
          by_contra hc
          push Not at hc
          exact h' ⟨by simpa using hc.1, hc.2⟩
        · exact fun hh => hh.1

/-- The bits of the word made of `n` byte lanes of `w` from lane `s` on. -/
theorem wordOfBytes_lanes_getLsbD (w : Word) (n s k : Nat) :
    (wordOfBytes ((List.range' s n).map (byteLane w))).getLsbD k =
      (decide (k < 64) && (decide (k < 8 * n) && w.getLsbD (8 * s + k))) := by
  induction n generalizing s k with
  | zero => simp [wordOfBytes]
  | succ n ih =>
    simp only [List.range'_succ, List.map_cons, wordOfBytes, BitVec.getLsbD_or, BitVec.getLsbD_shiftLeft,
      BitVec.getLsbD_setWidth, ih, byteLane, BitVec.getLsbD_extractLsb']
    by_cases h8 : k < 8
    · simp [h8, show k < 8 * (n + 1) by omega]
    · by_cases h64 : k < 64
      · simp [h8, h64, show k - 8 < 64 by omega, show (k - 8 < 8 * n) = (k < 8 * (n + 1)) by
          apply propext; omega, show 8 * (s + 1) + (k - 8) = 8 * s + k by omega]
      · simp [h64, h8]

/-- Putting a word's byte lanes together again gives the word. -/
theorem wordOfBytes_bytesOfWord (w : Word) : wordOfBytes (bytesOfWord w) = w := by
  apply BitVec.eq_of_getLsbD_eq
  intro k hk
  rw [bytesOfWord, List.range_eq_range', wordOfBytes_lanes_getLsbD]
  simp [hk]

theorem bytesOfWord_length (w : Word) : (bytesOfWord w).length = 8 := rfl

/-- The byte decoder reads a word laid out in its byte lanes as the word decoder reads the word. -/
theorem decodeBytes_bytesOfWord (w : Word) :
    decodeBytes (bytesOfWord w) = (decode w).map fun i => (i, []) := by
  have ht : (bytesOfWord w).take 8 = bytesOfWord w := List.take_of_length_le (Nat.le_of_eq (bytesOfWord_length w))
  have hd : (bytesOfWord w).drop 8 = [] := List.drop_of_length_le (Nat.le_of_eq (bytesOfWord_length w))
  have hl : ¬ (bytesOfWord w).length < 8 := by simp [bytesOfWord_length]
  rcases h : decode w <;> simp [decodeBytes, ht, hd, hl, wordOfBytes_bytesOfWord, h, Except.map]

/-- The table decoder is the word decoder on the table word. -/
theorem decodeTableWord_eq_some {nbits w : Nat} {i : Instr} :
    decodeTableWord nbits w = some i ↔ ∃ c, tableWord nbits w = some c ∧ decode c = .ok i := by
  unfold decodeTableWord
  cases ht : tableWord nbits w with
  | none => simp
  | some c => cases hd : decode c <;> simp [decodeBytes_bytesOfWord, hd, Except.map]

end Sys2Proof
end

