-- ==== Sys2Proof/Laws/Operands.lean ====
section
/-! SUPPORT. What the operands and the datapath functions are, bit by bit. -/

namespace Sys2Proof.Machine

/-! ### Entries by index -/

theorem sliceAt_eq (s : State) (z : Fin 64) : s.sliceAt z.val = s.sb[z] := by
  simp [State.sliceAt, z.isLt]

theorem laneAt_eq (s : State) (i : Fin 25) : s.laneAt i.val = s.lb[i] := by
  simp [State.laneAt, i.isLt]

theorem rowAt_eq (s : State) (z : Fin 64) : s.rowAt z.val = s.rp[z] := by
  simp [State.rowAt, z.isLt]

theorem sheetAt_eq (s : State) (x : Fin 5) : s.sheetAt x.val = s.sp[x] := by
  simp [State.sheetAt, x.isLt]

/-! ### Checks -/

theorem allBelow_iff (n : Nat) (f : Nat → Bool) : allBelow n f = true ↔ ∀ k < n, f k = true := by
  induction n with
  | zero => simp [allBelow]
  | succ n ih =>
    simp only [allBelow, Bool.and_eq_true, ih]
    exact ⟨fun h k hk => (Nat.lt_succ_iff_lt_or_eq.mp hk).elim (h.1 k) (fun e => e ▸ h.2),
      fun h => ⟨fun k hk => h k (by omega), h n (by omega)⟩⟩

theorem validRow_iff (v : Word) : validRow v = true ↔ v.toNat < 32 := by simp [validRow]

theorem validSlice_iff (v : Word) : validSlice v = true ↔ v.toNat < 2 ^ 25 := by simp [validSlice]

theorem validLane_iff (v : Word) (L : Nat) : validLane v L = true ↔ L = 64 ∨ v.toNat < 2 ^ L := by
  simp [validLane]

theorem validLane_of_le (v : Word) (L : Nat) (h : 64 ≤ L) : validLane v L = true :=
  (validLane_iff v L).mpr (.inr (Nat.lt_of_lt_of_le v.isLt (Nat.pow_le_pow_right (by omega) h)))

/-- A valid lane has no bit at L or above. -/
theorem getLsbD_of_validLane {v : Word} {L i : Nat} (h : validLane v L = true) (hi : L ≤ i) :
    v.getLsbD i = false := by
  rcases (validLane_iff v L).mp h with rfl | h
  · exact BitVec.getLsbD_of_ge v i hi
  · exact Nat.testBit_lt_two_pow (Nat.lt_of_lt_of_le h (Nat.pow_le_pow_right (by omega) hi))

/-- A word below 2^n is one with no bit at n or above. -/
theorem toNat_lt_of_getLsbD {w : Nat} {v : BitVec w} {n : Nat} (h : ∀ i, n ≤ i → v.getLsbD i = false) :
    v.toNat < 2 ^ n := by
  apply Nat.lt_pow_two_of_testBit
  intro i hi
  exact h i hi

theorem laneSize_pos (s : State) : 0 < s.laneSize := Nat.two_pow_pos _

theorem laneSize_le (s : State) (h : s.log2l.toNat ≤ 6) : s.laneSize ≤ 64 :=
  Nat.pow_le_pow_right (n := 2) (by omega) h

theorem slicesValid_iff (s : State) :
    s.slicesValid = true ↔ ∀ z : Fin 64, z.val < s.laneSize → s.sb[z].toNat < 2 ^ 25 := by
  simp only [State.slicesValid, allBelow_iff, validSlice_iff]
  refine ⟨fun h z hz => by simpa [sliceAt_eq] using h z.val hz, fun h z hz => ?_⟩
  by_cases hz' : z < 64
  · simpa [sliceAt_eq s ⟨z, hz'⟩] using h ⟨z, hz'⟩ hz
  · simp [State.sliceAt, hz']

theorem rowsValid_iff (s : State) :
    s.rowsValid = true ↔ ∀ z : Fin 64, z.val < s.laneSize → s.rp[z].toNat < 32 := by
  simp only [State.rowsValid, allBelow_iff, validRow_iff]
  refine ⟨fun h z hz => by simpa [rowAt_eq] using h z.val hz, fun h z hz => ?_⟩
  by_cases hz' : z < 64
  · simpa [rowAt_eq s ⟨z, hz'⟩] using h ⟨z, hz'⟩ hz
  · simp [State.rowAt, hz']

theorem lanesValid_iff (s : State) :
    s.lanesValid = true ↔ ∀ i : Fin 25, s.laneSize = 64 ∨ s.lb[i].toNat < 2 ^ s.laneSize := by
  simp only [State.lanesValid, allBelow_iff, validLane_iff]
  exact ⟨fun h i => by simpa [laneAt_eq] using h i.val i.isLt,
    fun h i hi => by simpa [laneAt_eq s ⟨i, hi⟩] using h ⟨i, hi⟩⟩

theorem sheetsValid_iff (s : State) :
    s.sheetsValid = true ↔ ∀ x : Fin 5, s.laneSize = 64 ∨ s.sp[x].toNat < 2 ^ s.laneSize := by
  simp only [State.sheetsValid, allBelow_iff, validLane_iff]
  exact ⟨fun h x => by simpa [sheetAt_eq] using h x.val x.isLt,
    fun h x hx => by simpa [sheetAt_eq s ⟨x, hx⟩] using h ⟨x, hx⟩⟩

/-! ### The datapath, bit by bit -/

theorem orBelow_getLsbD (n : Nat) (f : Nat → Word) (i : Nat) :
    (orBelow n f).getLsbD i = true ↔ ∃ k < n, (f k).getLsbD i = true := by
  induction n with
  | zero => simp [orBelow]
  | succ n ih =>
    simp only [orBelow, BitVec.getLsbD_or, Bool.or_eq_true, ih]
    constructor
    · rintro (⟨k, hk, h⟩ | h)
      · exact ⟨k, by omega, h⟩
      · exact ⟨n, by omega, h⟩
    · rintro ⟨k, hk, h⟩
      rcases Nat.lt_succ_iff_lt_or_eq.mp hk with hk | rfl
      · exact .inl ⟨k, hk, h⟩
      · exact .inr h

theorem sliceRow_getLsbD (v : SliceValue) (y x : Nat) :
    (sliceRow v y).getLsbD x = (decide (x < 5) && v.getLsbD (5 * y + x)) := by
  simp [sliceRow, BitVec.getLsbD_extractLsb']

/-- P(s)[x] = XOR over y of s[5y + x] (spec/40 R100). -/
theorem sliceParity_getLsbD (v : SliceValue) (x : Nat) (hx : x < 5) :
    (sliceParity v).getLsbD x =
      (((((v.getLsbD x) ^^ v.getLsbD (5 + x)) ^^ v.getLsbD (10 + x)) ^^ v.getLsbD (15 + x)) ^^ v.getLsbD (20 + x)) := by
  simp only [sliceParity, BitVec.getLsbD_xor, sliceRow_getLsbD, hx, decide_true, Bool.true_and]
  simp

theorem laneParity_getLsbD (lane : Nat → Word) (x i : Nat) :
    (laneParity lane x).getLsbD i =
      (((((lane x).getLsbD i) ^^ (lane (x + 5)).getLsbD i) ^^ (lane (x + 10)).getLsbD i) ^^
        (lane (x + 15)).getLsbD i ^^ (lane (x + 20)).getLsbD i) := by
  simp [laneParity]

theorem pack_getLsbD (v : RowValue) (z i : Nat) :
    (pack v z).getLsbD i = (decide (i < 64) && (!decide (i < 5 * z) && v.getLsbD (i - 5 * z))) := by
  simp only [pack, BitVec.getLsbD_shiftLeft, BitVec.getLsbD_setWidth]
  by_cases h : i < 64
  · simp [h, show i - 5 * z < 64 by omega]
  · simp [h]

/-- A set bit of a packed slot lies in the slot. -/
theorem pack_getLsbD_true {v : RowValue} {z i : Nat} (h : (pack v z).getLsbD i = true) :
    5 * z ≤ i ∧ i < 5 * z + 5 ∧ i < 64 ∧ v.getLsbD (i - 5 * z) = true := by
  rw [pack_getLsbD] at h
  simp only [Bool.and_eq_true, decide_eq_true_eq, Bool.not_eq_true', decide_eq_false_iff_not] at h
  have : i - 5 * z < 5 := by
    by_contra hc
    have := BitVec.getLsbD_of_ge v (i - 5 * z) (by omega)
    simp [this] at h
  exact ⟨by omega, by omega, h.1, h.2.2⟩

/-- Slot z of a packed word is the row packed there (spec/41 R132). -/
theorem packAll_getLsbD (n : Nat) (v : Nat → RowValue) (z x : Nat) (hz : z < 8) (hx : x < 5) :
    (packAll n v).getLsbD (5 * z + x) = (decide (z < n) && (v z).getLsbD x) := by
  rw [Bool.eq_iff_iff, packAll, orBelow_getLsbD]
  simp only [Bool.and_eq_true, decide_eq_true_eq]
  constructor
  · rintro ⟨k, hk, h⟩
    obtain ⟨h1, h2, -, h4⟩ := pack_getLsbD_true h
    obtain rfl : k = z := by omega
    exact ⟨hk, by simpa using h4⟩
  · rintro ⟨hz', h⟩
    exact ⟨z, hz', by rw [pack_getLsbD]; simp [h]; omega⟩

/-- Nothing is packed at bit 5n or above (spec/41 R132). -/
theorem packAll_getLsbD_of_ge (n : Nat) (v : Nat → RowValue) (i : Nat) (h : 5 * n ≤ i) :
    (packAll n v).getLsbD i = false := by
  rw [Bool.eq_false_iff, ne_eq, packAll, orBelow_getLsbD]
  rintro ⟨k, hk, hb⟩
  have := pack_getLsbD_true hb
  omega

theorem unpack_getLsbD (w : Word) (z x : Nat) :
    (unpack w z).getLsbD x = (decide (x < 5) && w.getLsbD (5 * z + x)) := by
  have h : (0x1F#64).getLsbD x = decide (x < 5) := by
    by_cases hx : x < 64
    · have : ∀ x : Fin 64, (0x1F#64).getLsbD x.val = decide (x.val < 5) := by decide
      exact this ⟨x, hx⟩
    · rw [BitVec.getLsbD_of_ge _ _ (by omega)]; simp; omega
  simp [unpack, h, Bool.and_comm]

/-- "Every unpack result is < 32" (spec/41 R134). -/
theorem unpack_lt (w : Word) (z : Nat) : (unpack w z).toNat < 32 :=
  toNat_lt_of_getLsbD (n := 5) fun i hi => by rw [unpack_getLsbD]; simp; omega

theorem bitTo_getLsbD (v : Word) (i k j : Nat) :
    (bitTo v i k).getLsbD j = (decide (j < 64) && (decide (j = k) && v.getLsbD i)) := by
  simp only [bitTo, BitVec.getLsbD_shiftLeft, BitVec.getLsbD_setWidth, BitVec.getLsbD_ofBool]
  by_cases h : j = k
  · subst h; simp
  · by_cases h' : j < k
    · simp [h, h']
    · have : ¬ j - k = 0 := by omega
      simp [h, this]

/-- S2H(r, L)[x][z] = r[z][x] for z < L, and no bit at L or above (spec/42 R160). -/
theorem sheetOfRows_getLsbD (L : Nat) (r : Nat → Word) (x z : Nat) :
    (sheetOfRows L r x).getLsbD z = (decide (z < 64) && (decide (z < L) && (r z).getLsbD x)) := by
  rw [Bool.eq_iff_iff, sheetOfRows, orBelow_getLsbD]
  simp only [bitTo_getLsbD, Bool.and_eq_true, decide_eq_true_eq]
  constructor
  · rintro ⟨k, hk, h1, rfl, h2⟩; exact ⟨h1, hk, h2⟩
  · rintro ⟨h1, hk, h2⟩; exact ⟨z, hk, h1, rfl, h2⟩

/-- H2S(s, L)[z][x] = s[x][z], and no bit at 5 or above (spec/42 R162). -/
theorem rowOfSheets_getLsbD (sh : Nat → Word) (z x : Nat) :
    (rowOfSheets sh z).getLsbD x = (decide (x < 5) && (sh x).getLsbD z) := by
  rw [Bool.eq_iff_iff, rowOfSheets, orBelow_getLsbD]
  simp only [bitTo_getLsbD, Bool.and_eq_true, decide_eq_true_eq]
  constructor
  · rintro ⟨k, hk, -, rfl, h2⟩; exact ⟨hk, h2⟩
  · rintro ⟨hx, h2⟩; exact ⟨x, hx, by omega, rfl, h2⟩

end Sys2Proof.Machine
end

