-- ==== Sys2Proof/Laws/State.lean ====
section
/-! SUPPORT. One lemma per field per update of State, so that no later proof unfolds a record update. -/

namespace Sys2Proof.Machine

variable (s : State)

/-! ### setRes -/

@[simp] theorem setRes_busy (v : Word) : (setRes v s).busy = s.busy := rfl
@[simp] theorem setRes_err (v : Word) : (setRes v s).err = s.err := rfl
@[simp] theorem setRes_errcode (v : Word) : (setRes v s).errcode = s.errcode := rfl
@[simp] theorem setRes_log2l (v : Word) : (setRes v s).log2l = s.log2l := rfl
@[simp] theorem setRes_cmd (v : Word) : (setRes v s).cmd = s.cmd := rfl
@[simp] theorem setRes_pend (v : Word) : (setRes v s).pend = s.pend := rfl
@[simp] theorem setRes_arg (v : Word) : (setRes v s).arg = s.arg := rfl
@[simp] theorem setRes_res (v : Word) : (setRes v s).res = v := rfl
@[simp] theorem setRes_pk (v : Word) : (setRes v s).pk = s.pk := rfl
@[simp] theorem setRes_sb (v : Word) : (setRes v s).sb = s.sb := rfl
@[simp] theorem setRes_lb (v : Word) : (setRes v s).lb = s.lb := rfl
@[simp] theorem setRes_rp (v : Word) : (setRes v s).rp = s.rp := rfl
@[simp] theorem setRes_sp (v : Word) : (setRes v s).sp = s.sp := rfl
@[simp] theorem setRes_sched (v : Word) : (setRes v s).sched = s.sched := rfl
@[simp] theorem setRes_host (v : Word) : (setRes v s).host = s.host := rfl
@[simp] theorem setRes_reads (v : Word) : (setRes v s).reads = s.reads := rfl
@[simp] theorem setRes_draws (v : Word) : (setRes v s).draws = s.draws := rfl

/-! ### setPk -/

@[simp] theorem setPk_busy (v : Word) : (setPk v s).busy = s.busy := rfl
@[simp] theorem setPk_err (v : Word) : (setPk v s).err = s.err := rfl
@[simp] theorem setPk_errcode (v : Word) : (setPk v s).errcode = s.errcode := rfl
@[simp] theorem setPk_log2l (v : Word) : (setPk v s).log2l = s.log2l := rfl
@[simp] theorem setPk_cmd (v : Word) : (setPk v s).cmd = s.cmd := rfl
@[simp] theorem setPk_pend (v : Word) : (setPk v s).pend = s.pend := rfl
@[simp] theorem setPk_arg (v : Word) : (setPk v s).arg = s.arg := rfl
@[simp] theorem setPk_res (v : Word) : (setPk v s).res = s.res := rfl
@[simp] theorem setPk_pk (v : Word) : (setPk v s).pk = v := rfl
@[simp] theorem setPk_sb (v : Word) : (setPk v s).sb = s.sb := rfl
@[simp] theorem setPk_lb (v : Word) : (setPk v s).lb = s.lb := rfl
@[simp] theorem setPk_rp (v : Word) : (setPk v s).rp = s.rp := rfl
@[simp] theorem setPk_sp (v : Word) : (setPk v s).sp = s.sp := rfl
@[simp] theorem setPk_sched (v : Word) : (setPk v s).sched = s.sched := rfl
@[simp] theorem setPk_host (v : Word) : (setPk v s).host = s.host := rfl
@[simp] theorem setPk_reads (v : Word) : (setPk v s).reads = s.reads := rfl
@[simp] theorem setPk_draws (v : Word) : (setPk v s).draws = s.draws := rfl

/-! ### setRows -/

@[simp] theorem setRows_busy (L : Nat) (f : Nat → Word) : (setRows L f s).busy = s.busy := by rw [setRows]
@[simp] theorem setRows_err (L : Nat) (f : Nat → Word) : (setRows L f s).err = s.err := by rw [setRows]
@[simp] theorem setRows_errcode (L : Nat) (f : Nat → Word) : (setRows L f s).errcode = s.errcode := by rw [setRows]
@[simp] theorem setRows_log2l (L : Nat) (f : Nat → Word) : (setRows L f s).log2l = s.log2l := by rw [setRows]
@[simp] theorem setRows_cmd (L : Nat) (f : Nat → Word) : (setRows L f s).cmd = s.cmd := by rw [setRows]
@[simp] theorem setRows_pend (L : Nat) (f : Nat → Word) : (setRows L f s).pend = s.pend := by rw [setRows]
@[simp] theorem setRows_arg (L : Nat) (f : Nat → Word) : (setRows L f s).arg = s.arg := by rw [setRows]
@[simp] theorem setRows_res (L : Nat) (f : Nat → Word) : (setRows L f s).res = s.res := by rw [setRows]
@[simp] theorem setRows_pk (L : Nat) (f : Nat → Word) : (setRows L f s).pk = s.pk := by rw [setRows]
@[simp] theorem setRows_sb (L : Nat) (f : Nat → Word) : (setRows L f s).sb = s.sb := by rw [setRows]
@[simp] theorem setRows_lb (L : Nat) (f : Nat → Word) : (setRows L f s).lb = s.lb := by rw [setRows]
@[simp] theorem setRows_rp (L : Nat) (f : Nat → Word) : (setRows L f s).rp = Vector.ofFn fun z : Fin 64 => if z.val < L then f z.val else s.rp[z.val] := rfl
@[simp] theorem setRows_sp (L : Nat) (f : Nat → Word) : (setRows L f s).sp = s.sp := by rw [setRows]
@[simp] theorem setRows_sched (L : Nat) (f : Nat → Word) : (setRows L f s).sched = s.sched := by rw [setRows]
@[simp] theorem setRows_host (L : Nat) (f : Nat → Word) : (setRows L f s).host = s.host := by rw [setRows]
@[simp] theorem setRows_reads (L : Nat) (f : Nat → Word) : (setRows L f s).reads = s.reads := by rw [setRows]
@[simp] theorem setRows_draws (L : Nat) (f : Nat → Word) : (setRows L f s).draws = s.draws := by rw [setRows]

/-! ### setSheets -/

@[simp] theorem setSheets_busy (f : Nat → Word) : (setSheets f s).busy = s.busy := rfl
@[simp] theorem setSheets_err (f : Nat → Word) : (setSheets f s).err = s.err := rfl
@[simp] theorem setSheets_errcode (f : Nat → Word) : (setSheets f s).errcode = s.errcode := rfl
@[simp] theorem setSheets_log2l (f : Nat → Word) : (setSheets f s).log2l = s.log2l := rfl
@[simp] theorem setSheets_cmd (f : Nat → Word) : (setSheets f s).cmd = s.cmd := rfl
@[simp] theorem setSheets_pend (f : Nat → Word) : (setSheets f s).pend = s.pend := rfl
@[simp] theorem setSheets_arg (f : Nat → Word) : (setSheets f s).arg = s.arg := rfl
@[simp] theorem setSheets_res (f : Nat → Word) : (setSheets f s).res = s.res := rfl
@[simp] theorem setSheets_pk (f : Nat → Word) : (setSheets f s).pk = s.pk := rfl
@[simp] theorem setSheets_sb (f : Nat → Word) : (setSheets f s).sb = s.sb := rfl
@[simp] theorem setSheets_lb (f : Nat → Word) : (setSheets f s).lb = s.lb := rfl
@[simp] theorem setSheets_rp (f : Nat → Word) : (setSheets f s).rp = s.rp := rfl
@[simp] theorem setSheets_sp (f : Nat → Word) : (setSheets f s).sp = Vector.ofFn fun x : Fin 5 => f x.val := rfl
@[simp] theorem setSheets_sched (f : Nat → Word) : (setSheets f s).sched = s.sched := rfl
@[simp] theorem setSheets_host (f : Nat → Word) : (setSheets f s).host = s.host := rfl
@[simp] theorem setSheets_reads (f : Nat → Word) : (setSheets f s).reads = s.reads := rfl
@[simp] theorem setSheets_draws (f : Nat → Word) : (setSheets f s).draws = s.draws := rfl

/-! ### issue -/

@[simp] theorem issue_busy (v : Word) : (issue v s).busy = true := rfl
@[simp] theorem issue_err (v : Word) : (issue v s).err = s.err := rfl
@[simp] theorem issue_errcode (v : Word) : (issue v s).errcode = s.errcode := rfl
@[simp] theorem issue_log2l (v : Word) : (issue v s).log2l = s.log2l := rfl
@[simp] theorem issue_cmd (v : Word) : (issue v s).cmd = v := rfl
@[simp] theorem issue_pend (v : Word) : (issue v s).pend = v := rfl
@[simp] theorem issue_arg (v : Word) : (issue v s).arg = s.arg := rfl
@[simp] theorem issue_res (v : Word) : (issue v s).res = s.res := rfl
@[simp] theorem issue_pk (v : Word) : (issue v s).pk = s.pk := rfl
@[simp] theorem issue_sb (v : Word) : (issue v s).sb = s.sb := rfl
@[simp] theorem issue_lb (v : Word) : (issue v s).lb = s.lb := rfl
@[simp] theorem issue_rp (v : Word) : (issue v s).rp = s.rp := rfl
@[simp] theorem issue_sp (v : Word) : (issue v s).sp = s.sp := rfl
@[simp] theorem issue_sched (v : Word) : (issue v s).sched = s.sched := rfl
@[simp] theorem issue_host (v : Word) : (issue v s).host = s.host := rfl
@[simp] theorem issue_reads (v : Word) : (issue v s).reads = s.reads := rfl
@[simp] theorem issue_draws (v : Word) : (issue v s).draws = s.draws := rfl

/-! ### endCommand -/

@[simp] theorem endCommand_busy : (endCommand s).busy = false := rfl
@[simp] theorem endCommand_err : (endCommand s).err = s.err := rfl
@[simp] theorem endCommand_errcode : (endCommand s).errcode = s.errcode := rfl
@[simp] theorem endCommand_log2l : (endCommand s).log2l = s.log2l := rfl
@[simp] theorem endCommand_cmd : (endCommand s).cmd = s.cmd := rfl
@[simp] theorem endCommand_pend : (endCommand s).pend = s.pend := rfl
@[simp] theorem endCommand_arg : (endCommand s).arg = s.arg := rfl
@[simp] theorem endCommand_res : (endCommand s).res = s.res := rfl
@[simp] theorem endCommand_pk : (endCommand s).pk = s.pk := rfl
@[simp] theorem endCommand_sb : (endCommand s).sb = s.sb := rfl
@[simp] theorem endCommand_lb : (endCommand s).lb = s.lb := rfl
@[simp] theorem endCommand_rp : (endCommand s).rp = s.rp := rfl
@[simp] theorem endCommand_sp : (endCommand s).sp = s.sp := rfl
@[simp] theorem endCommand_sched : (endCommand s).sched = s.sched := rfl
@[simp] theorem endCommand_host : (endCommand s).host = s.host := rfl
@[simp] theorem endCommand_reads : (endCommand s).reads = s.reads := rfl
@[simp] theorem endCommand_draws : (endCommand s).draws = s.draws := rfl

/-! ### clearError -/

@[simp] theorem clearError_busy : (clearError s).busy = s.busy := rfl
@[simp] theorem clearError_err : (clearError s).err = false := rfl
@[simp] theorem clearError_errcode : (clearError s).errcode = 0 := rfl
@[simp] theorem clearError_log2l : (clearError s).log2l = s.log2l := rfl
@[simp] theorem clearError_cmd : (clearError s).cmd = s.cmd := rfl
@[simp] theorem clearError_pend : (clearError s).pend = s.pend := rfl
@[simp] theorem clearError_arg : (clearError s).arg = s.arg := rfl
@[simp] theorem clearError_res : (clearError s).res = s.res := rfl
@[simp] theorem clearError_pk : (clearError s).pk = s.pk := rfl
@[simp] theorem clearError_sb : (clearError s).sb = s.sb := rfl
@[simp] theorem clearError_lb : (clearError s).lb = s.lb := rfl
@[simp] theorem clearError_rp : (clearError s).rp = s.rp := rfl
@[simp] theorem clearError_sp : (clearError s).sp = s.sp := rfl
@[simp] theorem clearError_sched : (clearError s).sched = s.sched := rfl
@[simp] theorem clearError_host : (clearError s).host = s.host := rfl
@[simp] theorem clearError_reads : (clearError s).reads = s.reads := rfl
@[simp] theorem clearError_draws : (clearError s).draws = s.draws := rfl

/-! ### recordRead -/

@[simp] theorem recordRead_busy (v : Word) : (recordRead v s).busy = s.busy := rfl
@[simp] theorem recordRead_err (v : Word) : (recordRead v s).err = s.err := rfl
@[simp] theorem recordRead_errcode (v : Word) : (recordRead v s).errcode = s.errcode := rfl
@[simp] theorem recordRead_log2l (v : Word) : (recordRead v s).log2l = s.log2l := rfl
@[simp] theorem recordRead_cmd (v : Word) : (recordRead v s).cmd = s.cmd := rfl
@[simp] theorem recordRead_pend (v : Word) : (recordRead v s).pend = s.pend := rfl
@[simp] theorem recordRead_arg (v : Word) : (recordRead v s).arg = s.arg := rfl
@[simp] theorem recordRead_res (v : Word) : (recordRead v s).res = s.res := rfl
@[simp] theorem recordRead_pk (v : Word) : (recordRead v s).pk = s.pk := rfl
@[simp] theorem recordRead_sb (v : Word) : (recordRead v s).sb = s.sb := rfl
@[simp] theorem recordRead_lb (v : Word) : (recordRead v s).lb = s.lb := rfl
@[simp] theorem recordRead_rp (v : Word) : (recordRead v s).rp = s.rp := rfl
@[simp] theorem recordRead_sp (v : Word) : (recordRead v s).sp = s.sp := rfl
@[simp] theorem recordRead_sched (v : Word) : (recordRead v s).sched = s.sched := rfl
@[simp] theorem recordRead_host (v : Word) : (recordRead v s).host = s.host := rfl
@[simp] theorem recordRead_reads (v : Word) : (recordRead v s).reads = v :: s.reads := rfl
@[simp] theorem recordRead_draws (v : Word) : (recordRead v s).draws = s.draws := rfl

/-! ### drawOne -/

@[simp] theorem drawOne_busy : (drawOne s).busy = s.busy := rfl
@[simp] theorem drawOne_err : (drawOne s).err = s.err := rfl
@[simp] theorem drawOne_errcode : (drawOne s).errcode = s.errcode := rfl
@[simp] theorem drawOne_log2l : (drawOne s).log2l = s.log2l := rfl
@[simp] theorem drawOne_cmd : (drawOne s).cmd = s.cmd := rfl
@[simp] theorem drawOne_pend : (drawOne s).pend = s.pend := rfl
@[simp] theorem drawOne_arg : (drawOne s).arg = s.arg := rfl
@[simp] theorem drawOne_res : (drawOne s).res = s.res := rfl
@[simp] theorem drawOne_pk : (drawOne s).pk = s.pk := rfl
@[simp] theorem drawOne_sb : (drawOne s).sb = s.sb := rfl
@[simp] theorem drawOne_lb : (drawOne s).lb = s.lb := rfl
@[simp] theorem drawOne_rp : (drawOne s).rp = s.rp := rfl
@[simp] theorem drawOne_sp : (drawOne s).sp = s.sp := rfl
@[simp] theorem drawOne_sched : (drawOne s).sched = s.sched := rfl
@[simp] theorem drawOne_host : (drawOne s).host = s.host := rfl
@[simp] theorem drawOne_reads : (drawOne s).reads = s.reads := rfl
@[simp] theorem drawOne_draws : (drawOne s).draws = s.draws + 1 := rfl

/-! ### dropTurn -/

@[simp] theorem dropTurn_busy : (dropTurn s).busy = s.busy := rfl
@[simp] theorem dropTurn_err : (dropTurn s).err = s.err := rfl
@[simp] theorem dropTurn_errcode : (dropTurn s).errcode = s.errcode := rfl
@[simp] theorem dropTurn_log2l : (dropTurn s).log2l = s.log2l := rfl
@[simp] theorem dropTurn_cmd : (dropTurn s).cmd = s.cmd := rfl
@[simp] theorem dropTurn_pend : (dropTurn s).pend = s.pend := rfl
@[simp] theorem dropTurn_arg : (dropTurn s).arg = s.arg := rfl
@[simp] theorem dropTurn_res : (dropTurn s).res = s.res := rfl
@[simp] theorem dropTurn_pk : (dropTurn s).pk = s.pk := rfl
@[simp] theorem dropTurn_sb : (dropTurn s).sb = s.sb := rfl
@[simp] theorem dropTurn_lb : (dropTurn s).lb = s.lb := rfl
@[simp] theorem dropTurn_rp : (dropTurn s).rp = s.rp := rfl
@[simp] theorem dropTurn_sp : (dropTurn s).sp = s.sp := rfl
@[simp] theorem dropTurn_sched : (dropTurn s).sched = s.sched.tail := rfl
@[simp] theorem dropTurn_host : (dropTurn s).host = s.host := rfl
@[simp] theorem dropTurn_reads : (dropTurn s).reads = s.reads := rfl
@[simp] theorem dropTurn_draws : (dropTurn s).draws = s.draws := rfl

/-! ### applyReset -/

@[simp] theorem applyReset_busy : (applyReset s).busy = false := rfl
@[simp] theorem applyReset_err : (applyReset s).err = false := rfl
@[simp] theorem applyReset_errcode : (applyReset s).errcode = 0 := rfl
@[simp] theorem applyReset_log2l : (applyReset s).log2l = 6 := rfl
@[simp] theorem applyReset_cmd : (applyReset s).cmd = 0 := rfl
@[simp] theorem applyReset_pend : (applyReset s).pend = 0 := rfl
@[simp] theorem applyReset_arg : (applyReset s).arg = 0 := rfl
@[simp] theorem applyReset_res : (applyReset s).res = 0 := rfl
@[simp] theorem applyReset_pk : (applyReset s).pk = 0 := rfl
@[simp] theorem applyReset_sb : (applyReset s).sb = drawnSb s.draws := rfl
@[simp] theorem applyReset_lb : (applyReset s).lb = drawnLb s.draws := rfl
@[simp] theorem applyReset_rp : (applyReset s).rp = drawnRp s.draws := rfl
@[simp] theorem applyReset_sp : (applyReset s).sp = drawnSp s.draws := rfl
@[simp] theorem applyReset_sched : (applyReset s).sched = s.sched := rfl
@[simp] theorem applyReset_host : (applyReset s).host = s.host := rfl
@[simp] theorem applyReset_reads : (applyReset s).reads = s.reads := rfl
@[simp] theorem applyReset_draws : (applyReset s).draws = s.draws + 1 := rfl

/-! ### recordError: it writes ERR and ERRCODE alone -/

@[simp] theorem recordError_busy (c : ErrCode) : (recordError c s).busy = s.busy := by
  unfold recordError; split <;> rfl
@[simp] theorem recordError_err (c : ErrCode) : (recordError c s).err = true := by
  unfold recordError; split <;> simp_all
@[simp] theorem recordError_errcode (c : ErrCode) :
    (recordError c s).errcode = if s.err then s.errcode else c.code := by
  unfold recordError; split <;> simp_all
@[simp] theorem recordError_log2l (c : ErrCode) : (recordError c s).log2l = s.log2l := by
  unfold recordError; split <;> rfl
@[simp] theorem recordError_cmd (c : ErrCode) : (recordError c s).cmd = s.cmd := by
  unfold recordError; split <;> rfl
@[simp] theorem recordError_pend (c : ErrCode) : (recordError c s).pend = s.pend := by
  unfold recordError; split <;> rfl
@[simp] theorem recordError_arg (c : ErrCode) : (recordError c s).arg = s.arg := by
  unfold recordError; split <;> rfl
@[simp] theorem recordError_res (c : ErrCode) : (recordError c s).res = s.res := by
  unfold recordError; split <;> rfl
@[simp] theorem recordError_pk (c : ErrCode) : (recordError c s).pk = s.pk := by
  unfold recordError; split <;> rfl
@[simp] theorem recordError_sb (c : ErrCode) : (recordError c s).sb = s.sb := by
  unfold recordError; split <;> rfl
@[simp] theorem recordError_lb (c : ErrCode) : (recordError c s).lb = s.lb := by
  unfold recordError; split <;> rfl
@[simp] theorem recordError_rp (c : ErrCode) : (recordError c s).rp = s.rp := by
  unfold recordError; split <;> rfl
@[simp] theorem recordError_sp (c : ErrCode) : (recordError c s).sp = s.sp := by
  unfold recordError; split <;> rfl
@[simp] theorem recordError_sched (c : ErrCode) : (recordError c s).sched = s.sched := by
  unfold recordError; split <;> rfl
@[simp] theorem recordError_host (c : ErrCode) : (recordError c s).host = s.host := by
  unfold recordError; split <;> rfl
@[simp] theorem recordError_reads (c : ErrCode) : (recordError c s).reads = s.reads := by
  unfold recordError; split <;> rfl
@[simp] theorem recordError_draws (c : ErrCode) : (recordError c s).draws = s.draws := by
  unfold recordError; split <;> rfl

end Sys2Proof.Machine
end

