-- ==== Sys2Proof/Laws/Ops.lean ====
section
/-! SUPPORT. What the shared operations of an engine step can do. -/

namespace Sys2Proof.Machine

theorem setRows_rp_getElem (L : Nat) (f : Nat → Word) (s : State) (z : Fin 64) :
    (setRows L f s).rp[z] = if z.val < L then f z.val else s.rp[z] := by
  simp

theorem setSheets_sp_getElem (f : Nat → Word) (s : State) (x : Fin 5) : (setSheets f s).sp[x] = f x.val := by
  simp

/-! What a command that writes a buffer leaves. (Unifying two states that differ in RP makes Lean unfold 64 entries, so
rewrite with these.) -/

theorem endCommand_setRows_rp (L : Nat) (f : Nat → Word) (s : State) (z : Fin 64) :
    (endCommand (setRows L f s)).rp[z] = if z.val < L then f z.val else s.rp[z] :=
  setRows_rp_getElem L f s z

theorem endCommand_setRows (L : Nat) (f : Nat → Word) (s : State) :
    endCommand (setRows L f s) = { s with rp := (endCommand (setRows L f s)).rp, busy := false } := by
  simp only [endCommand, setRows]

theorem endCommand_setSheets_sp (f : Nat → Word) (s : State) (x : Fin 5) :
    (endCommand (setSheets f s)).sp[x] = f x.val :=
  setSheets_sp_getElem f s x

theorem endCommand_setSheets (f : Nat → Word) (s : State) :
    endCommand (setSheets f s) = { s with sp := (endCommand (setSheets f s)).sp, busy := false } := by
  simp only [endCommand, setSheets]

/-- A failed command, field by field. -/
theorem endCommand_recordError (c : ErrCode) (s : State) :
    endCommand (recordError c s) =
      { s with busy := false, err := true, errcode := if s.err then s.errcode else c.code } := by
  unfold endCommand recordError
  cases h : s.err
  · simp
  · simp [h]

/-- A refused access, field by field. -/
theorem recordError_eq (c : ErrCode) (s : State) :
    recordError c s = { s with err := true, errcode := if s.err then s.errcode else c.code } := by
  unfold recordError
  cases h : s.err <;> simp
  rw [← h]

theorem firstFailing_cons_pass (c : ErrCode) (rest : List (Bool × ErrCode)) :
    firstFailing ((true, c) :: rest) = firstFailing rest := rfl

theorem firstFailing_cons_fail (c : ErrCode) (rest : List (Bool × ErrCode)) :
    firstFailing ((false, c) :: rest) = some c := rfl

/-- A command's end: performed in full, or an error recorded in the state before and nothing else (spec/60 R200). -/
theorem finishCommand_cases (checks : List (Bool × ErrCode)) (s done : State) :
    (firstFailing checks = none ∧ finishCommand checks s done = endCommand done) ∨
      ∃ c, firstFailing checks = some c ∧ finishCommand checks s done = endCommand (recordError c s) := by
  unfold finishCommand
  cases h : firstFailing checks with
  | none => exact .inl ⟨rfl, rfl⟩
  | some c => exact .inr ⟨c, rfl, rfl⟩

/-- One check, passed or failed. -/
theorem finishCommand_one (ok : Bool) (c : ErrCode) (s done : State) :
    finishCommand [(ok, c)] s done = if ok then endCommand done else endCommand (recordError c s) := by
  cases ok <;> rfl

/-- Two checks in their order. -/
theorem finishCommand_two (ok₁ ok₂ : Bool) (c₁ c₂ : ErrCode) (s done : State) :
    finishCommand [(ok₁, c₁), (ok₂, c₂)] s done =
      if ok₁ then (if ok₂ then endCommand done else endCommand (recordError c₂ s))
      else endCommand (recordError c₁ s) := by
  cases ok₁ <;> cases ok₂ <;> rfl

@[simp] theorem finishCommand_busy (checks : List (Bool × ErrCode)) (s done : State) :
    (finishCommand checks s done).busy = false := by
  rcases finishCommand_cases checks s done with ⟨-, h⟩ | ⟨c, -, h⟩ <;> simp [h]

@[simp] theorem recordError_recordError (c d : ErrCode) (s : State) :
    recordError d (recordError c s) = recordError c s := by
  simp [recordError]
  split <;> simp_all

/-- Every error code is one of 1 to 7 (spec/60 R201). -/
theorem ErrCode.code_range (c : ErrCode) : 1 ≤ c.code.toNat ∧ c.code.toNat ≤ 7 := by
  cases c <;> decide

end Sys2Proof.Machine
end

