-- ==== Sys2Proof/Laws/Exec.lean ====
section
/-! SUPPORT. What a command's engine step can do, said once for all commands. -/

namespace Sys2Proof.Machine

/-- The checks of a command in their order (spec/30 R80). -/
def checksOf (i : Instr) (s : State) : List (Bool × ErrCode) :=
  match i with
  | .pars1 => [(validSlice s.arg, .value)]
  | .parsp => [(s.laneSizePacks, .lsize), (s.slicesValid, .value)]
  | .pars => [(s.slicesValid, .value)]
  | .parl => [(s.lanesValid, .value)]
  | .pack1 z => [(slotInRange z, .slot), (validRow s.arg, .value)]
  | .packa => [(s.laneSizePacks, .lsize), (s.rowsValid, .value)]
  | .unpk1 z => [(slotInRange z, .slot)]
  | .unpka => [(s.laneSizePacks, .lsize)]
  | .s2h => [(s.rowsValid, .value)]
  | .h2s => [(s.sheetsValid, .value)]

/-- What a command performs once its checks have passed. -/
def performOf (i : Instr) (s : State) : State :=
  match i with
  | .pars1 => setRes ((sliceParity (s.arg.setWidth 25)).setWidth 64) s
  | .parsp => setPk (packAll s.laneSize s.parityAt) s
  | .pars => setRows s.laneSize (fun z => (s.parityAt z).setWidth 64) s
  | .parl => setSheets (laneParity s.laneAt) s
  | .pack1 z => setPk (pack (s.arg.setWidth 5) z) s
  | .packa => setPk (packAll s.laneSize fun z => (s.rowAt z).setWidth 5) s
  | .unpk1 z => setRes (unpack s.pk z) s
  | .unpka => setRows s.laneSize (unpack s.pk) s
  | .s2h => setSheets (sheetOfRows s.laneSize s.rowAt) s
  | .h2s => setRows s.laneSize (rowOfSheets s.sheetAt) s

/-- Every command is its checks, then what it performs (spec/30 R80). -/
theorem exec_eq (i : Instr) (s : State) :
    exec i s = .next (finishCommand (checksOf i s) s (performOf i s)) := by
  cases i <;> rfl

/-- Inversion of `exec`: a command is performed in full, or records the first failing check's error and does nothing
else (spec/60 R200). -/
theorem exec_cases {i : Instr} {s t : State} (h : exec i s = .next t) :
    (firstFailing (checksOf i s) = none ∧ t = endCommand (performOf i s)) ∨
      ∃ c, firstFailing (checksOf i s) = some c ∧ t = endCommand (recordError c s) := by
  rw [exec_eq] at h
  injection h with h
  subst h
  exact finishCommand_cases _ _ _

theorem exec_pass {i : Instr} {s : State} (h : firstFailing (checksOf i s) = none) :
    exec i s = .next (endCommand (performOf i s)) := by
  rw [exec_eq, finishCommand, h]

theorem exec_fail {i : Instr} {s : State} {c : ErrCode} (h : firstFailing (checksOf i s) = some c) :
    exec i s = .next (endCommand (recordError c s)) := by
  rw [exec_eq, finishCommand, h]

end Sys2Proof.Machine
end

