-- ==== Sys2Proof/Laws/PerInstr.lean ====
section
/-! SUPPORT. Facts about every command as syntax, one lemma per constructor. -/

namespace Sys2Proof.Laws.EncodeMatches

/-- The command word of a command matches its row of the opcode map: (c & mask) = match (spec/30 R72). -/
def Statement (i : Instr) : Prop := encode i &&& i.mask = i.matchWord

theorem pars1 : Statement .pars1 := by unfold Statement; decide
theorem parsp : Statement .parsp := by unfold Statement; decide
theorem pars : Statement .pars := by unfold Statement; decide
theorem parl : Statement .parl := by unfold Statement; decide
theorem packa : Statement .packa := by unfold Statement; decide
theorem unpka : Statement .unpka := by unfold Statement; decide
theorem s2h : Statement .s2h := by unfold Statement; decide
theorem h2s : Statement .h2s := by unfold Statement; decide

/-- The mask of a command with a slot keeps OP and drops Z. -/
theorem mask_wordOf (op : BitVec 4) (z : BitVec 6) : wordOf op z &&& 0xFFFFFFFFFFFFC0FF#64 = op.setWidth 64 := by
  apply BitVec.eq_of_getLsbD_eq
  intro k hk
  have hm : ∀ k : Fin 64, (0xFFFFFFFFFFFFC0FF#64).getLsbD k.val = !decide (8 ≤ k.val ∧ k.val < 14) := by decide
  have := hm ⟨k, hk⟩
  simp only at this
  rw [BitVec.getLsbD_and, this, wordOf_getLsbD, BitVec.getLsbD_setWidth]
  by_cases h8 : 8 ≤ k
  · rw [BitVec.getLsbD_of_ge op _ (by omega)]
    by_cases h14 : k < 14
    · simp [h8, h14]
    · rw [BitVec.getLsbD_of_ge z _ (by omega)]
      simp
  · simp [h8, hk]

theorem pack1 (z : Nat) : Statement (.pack1 z) := mask_wordOf _ _
theorem unpk1 (z : Nat) : Statement (.unpk1 z) := mask_wordOf _ _

end Sys2Proof.Laws.EncodeMatches
end

