-- ==== Sys2Proof/Laws/Window.lean ====
section
/-! SUPPORT. The address map, and what a host access can do. -/

namespace Sys2Proof.Machine

/-- The map finds every register and entry at its offset. -/
theorem locate_offset (r : Loc) : locate r.offset = some r := by
  cases r with
  | sb z =>
    have := z.isLt
    generalize ho : (Loc.sb z).offset = off
    simp only [Loc.offset] at ho
    unfold locate
    repeat rw [if_neg (by omega)]
    rw [if_pos (by omega)]
    simp only [Option.some.injEq, Loc.sb.injEq, Fin.ext_iff, Fin.ofNat]
    omega
  | lb i =>
    have := i.isLt
    generalize ho : (Loc.lb i).offset = off
    simp only [Loc.offset] at ho
    unfold locate
    repeat rw [if_neg (by omega)]
    rw [if_pos (by omega)]
    simp only [Option.some.injEq, Loc.lb.injEq, Fin.ext_iff, Fin.ofNat]
    omega
  | rp z =>
    have := z.isLt
    generalize ho : (Loc.rp z).offset = off
    simp only [Loc.offset] at ho
    unfold locate
    repeat rw [if_neg (by omega)]
    rw [if_pos (by omega)]
    simp only [Option.some.injEq, Loc.rp.injEq, Fin.ext_iff, Fin.ofNat]
    omega
  | sp x =>
    have := x.isLt
    generalize ho : (Loc.sp x).offset = off
    simp only [Loc.offset] at ho
    unfold locate
    repeat rw [if_neg (by omega)]
    rw [if_pos (by omega)]
    simp only [Option.some.injEq, Loc.sp.injEq, Fin.ext_iff, Fin.ofNat]
    omega
  | _ => rfl

/-- The offsets the map of spec/20 R51 gives an access other than "-". -/
def Mapped (off : Nat) : Prop :=
  off % 8 = 0 ∧ (off < 0x030 ∨ (0x100 ≤ off ∧ off < 0x3C8) ∨ (0x400 ≤ off ∧ off < 0x628))

/-- Every mapped offset is that of a register or entry. -/
theorem exists_offset_of_mapped {off : Nat} (h : Mapped off) : ∃ r : Loc, r.offset = off := by
  obtain ⟨h8, h | ⟨h1, h2⟩ | ⟨h1, h2⟩⟩ := h
  · obtain h | h | h | h | h | h :
        off = 0x000 ∨ off = 0x008 ∨ off = 0x010 ∨ off = 0x018 ∨ off = 0x020 ∨ off = 0x028 := by omega
    exacts [⟨.status, h.symm⟩, ⟨.cfg, h.symm⟩, ⟨.cmd, h.symm⟩, ⟨.arg, h.symm⟩, ⟨.res, h.symm⟩, ⟨.pk, h.symm⟩]
  · by_cases h3 : off < 0x300
    · exact ⟨.sb ⟨(off - 0x100) / 8, by omega⟩, by simp only [Loc.offset]; omega⟩
    · exact ⟨.lb ⟨(off - 0x300) / 8, by omega⟩, by simp only [Loc.offset]; omega⟩
  · by_cases h3 : off < 0x600
    · exact ⟨.rp ⟨(off - 0x400) / 8, by omega⟩, by simp only [Loc.offset]; omega⟩
    · exact ⟨.sp ⟨(off - 0x600) / 8, by omega⟩, by simp only [Loc.offset]; omega⟩

/-- The map has nothing at any other offset. -/
theorem locate_eq_none_of_not_mapped {off : Nat} (h : ¬ Mapped off) : locate off = none := by
  unfold Mapped at h
  unfold locate
  by_cases h8 : off % 8 = 0
  · rw [if_neg (by omega)]
    repeat rw [if_neg (by omega : ¬ off = _)]
    by_cases h1 : off < 0x100
    · rw [if_pos h1]
    · rw [if_neg h1, if_neg (by omega), if_neg (by omega)]
      by_cases h2 : off < 0x400
      · rw [if_pos h2]
      · rw [if_neg h2, if_neg (by omega), if_neg (by omega)]
  · rw [if_pos h8]

theorem mapped_offset (r : Loc) : Mapped r.offset := by
  by_contra h
  have := locate_eq_none_of_not_mapped h
  rw [locate_offset] at this
  cases this

/-- What the map finds at an offset lies at that offset. -/
theorem offset_of_locate {off : Nat} {r : Loc} (h : locate off = some r) : r.offset = off := by
  by_cases hm : Mapped off
  · obtain ⟨r', rfl⟩ := exists_offset_of_mapped hm
    rw [locate_offset] at h
    injection h with h
    rw [h]
  · rw [locate_eq_none_of_not_mapped hm] at h
    cases h

theorem locate_eq_none_iff (off : Nat) : locate off = none ↔ ¬ Mapped off := by
  refine ⟨fun h hm => ?_, locate_eq_none_of_not_mapped⟩
  obtain ⟨r, rfl⟩ := exists_offset_of_mapped hm
  rw [locate_offset] at h
  cases h

theorem locate_eq_some_iff (off : Nat) (r : Loc) : locate off = some r ↔ off = r.offset :=
  ⟨fun h => (offset_of_locate h).symm, fun h => h ▸ locate_offset r⟩

theorem reach_offset (r : Loc) : reach 8 r.offset = some r := by simp [reach, locate_offset]

theorem reach_eq_some_iff (width off : Nat) (r : Loc) :
    reach width off = some r ↔ width = 8 ∧ off = r.offset := by
  unfold reach
  split <;> simp_all [locate_eq_some_iff]

/-- Everything a host read can do (spec/20 R52). -/
theorem memRead_cases (width off : Nat) (s : State) :
    (reach width off = none ∧ memRead width off s = (0, recordError .access s)) ∨
      ∃ r, reach width off = some r ∧
        ((s.busy = true ∧ r.readsExactly = false ∧ memRead width off s = (Config.busyRead s.draws, drawOne s)) ∨
          ((s.busy = false ∨ r.readsExactly = true) ∧ memRead width off s = (peek s r, s))) := by
  unfold memRead
  cases h : reach width off with
  | none => exact .inl ⟨rfl, rfl⟩
  | some r =>
    refine .inr ⟨r, rfl, ?_⟩
    cases hb : s.busy <;> cases hr : r.readsExactly <;> simp [hr]

/-- Everything a host write can do (spec/20 R52). -/
theorem memWrite_cases (width off : Nat) (v : Word) (s : State) :
    ((reach width off = none ∨ reach width off = some .res) ∧ memWrite width off v s = recordError .access s) ∨
      (reach width off = some .status ∧ clearsError v = true ∧ memWrite width off v s = clearError s) ∨
      (reach width off = some .status ∧ clearsError v = false ∧ memWrite width off v s = s) ∨
      ∃ r, reach width off = some r ∧ r ≠ .res ∧ r ≠ .status ∧
        ((s.busy = true ∧ memWrite width off v s = recordError .busy s) ∨
          (s.busy = false ∧ memWrite width off v s = acceptWrite r v s)) := by
  unfold memWrite
  cases h : reach width off with
  | none => simp
  | some r => cases r <;> cases hb : s.busy <;> cases hc : clearsError v <;> simp

/-- A write the window accepts changes one register or entry and no other; CMD also sets PEND and BUSY. -/
theorem peek_acceptWrite_of_ne {r r' : Loc} (v : Word) (s : State) (hr : r ≠ .cfg ∧ r ≠ .cmd) (hne : r' ≠ r) :
    peek (acceptWrite r v s) r' = peek s r' := by
  cases r with
  | cfg => exact absurd rfl hr.1
  | cmd => exact absurd rfl hr.2
  | sb z =>
    cases r' <;> first | rfl | skip
    rename_i z'
    have : z ≠ z' := fun h => hne (h ▸ rfl)
    have : z.val ≠ z'.val := fun h => this (Fin.ext h)
    simp [acceptWrite, peek, this]
  | lb z =>
    cases r' <;> first | rfl | skip
    rename_i z'
    have : z ≠ z' := fun h => hne (h ▸ rfl)
    have : z.val ≠ z'.val := fun h => this (Fin.ext h)
    simp [acceptWrite, peek, this]
  | rp z =>
    cases r' <;> first | rfl | skip
    rename_i z'
    have : z ≠ z' := fun h => hne (h ▸ rfl)
    have : z.val ≠ z'.val := fun h => this (Fin.ext h)
    simp [acceptWrite, peek, this]
  | sp z =>
    cases r' <;> first | rfl | skip
    rename_i z'
    have : z ≠ z' := fun h => hne (h ▸ rfl)
    have : z.val ≠ z'.val := fun h => this (Fin.ext h)
    simp [acceptWrite, peek, this]
  | arg => cases r' <;> first | rfl | exact absurd rfl hne
  | pk => cases r' <;> first | rfl | exact absurd rfl hne
  | status => rfl
  | res => rfl

/-- The registers and entries whose accepted write is nothing but the storing of all 64 bits (spec/20 R52). -/
def Loc.stores : Loc → Bool
  | .status => false
  | .cfg => false
  | .cmd => false
  | .arg => true
  | .res => false
  | .pk => true
  | .sb _ => true
  | .lb _ => true
  | .rp _ => true
  | .sp _ => true

/-- A stored word is what the register or entry then holds. -/
theorem peek_acceptWrite_self {r : Loc} (v : Word) (s : State) (hr : r.stores = true) :
    peek (acceptWrite r v s) r = v := by
  cases r <;> simp_all [Loc.stores, acceptWrite, peek]

/-- A stored word changes no field of State but those of ARG, PK and the buffers. -/
theorem acceptWrite_frame {r : Loc} (v : Word) (s : State) (hr : r.stores = true) :
    acceptWrite r v s = { s with
      arg := (acceptWrite r v s).arg, pk := (acceptWrite r v s).pk
      sb := (acceptWrite r v s).sb, lb := (acceptWrite r v s).lb
      rp := (acceptWrite r v s).rp, sp := (acceptWrite r v s).sp } := by
  cases r <;> first | rfl | cases hr

end Sys2Proof.Machine
end

