-- ==== Sys2Proof/Laws/Step.lean ====
section
/-! SUPPORT. What one step can do, agent by agent. -/

namespace Sys2Proof.Machine

/-- Everything the engine's turn can do (spec/30 R79). -/
theorem engineTurn_cases {s t : State} (h : engineTurn s = .next t) :
    (s.busy = false ∧ t = s) ∨
      (s.busy = true ∧ ∃ i, decode s.pend = .ok i ∧ exec i s = .next t) ∨
      (s.busy = true ∧ ∃ e, decode s.pend = .error e ∧ t = rejectWord s) := by
  unfold engineTurn at h
  split at h
  · rename_i hb
    split at h
    · rename_i i hd; exact .inr (.inl ⟨hb, i, hd, h⟩)
    · rename_i e hd; injection h with h; exact .inr (.inr ⟨hb, e, hd, h.symm⟩)
  · rename_i hb; injection h with h; exact .inl ⟨by simpa using hb, h.symm⟩

/-- Every engine turn answers a next state. -/
theorem engineTurn_next (s : State) : ∃ t, engineTurn s = .next t := by
  unfold engineTurn
  split
  · split
    · exact ⟨_, exec_eq _ _⟩
    · exact ⟨_, rfl⟩
  · exact ⟨_, rfl⟩

/-- Everything a step can do, by whose turn it is. -/
theorem step_cases {s t : State} (h : step s = .next t) :
    (nextTurn s = .engine ∧ engineTurn (dropTurn s) = .next t) ∨
      (nextTurn s = .host ∧ t = hostTurn (dropTurn s)) ∨
      (nextTurn s = .reset ∧ t = applyReset (dropTurn s)) ∨
      (nextTurn s = .resetHost ∧ t = applyReset (loseAccess (dropTurn s))) := by
  unfold step at h
  split at h
  · rename_i ht; exact .inl ⟨ht, h⟩
  · rename_i ht; injection h with h; exact .inr (.inl ⟨ht, h.symm⟩)
  · rename_i ht; injection h with h; exact .inr (.inr (.inl ⟨ht, h.symm⟩))
  · rename_i ht; injection h with h; exact .inr (.inr (.inr ⟨ht, h.symm⟩))

/-- Everything the host's turn can do. -/
theorem hostTurn_cases (s : State) :
    (s.host = [] ∧ hostTurn s = s) ∨
      (∃ width off rest, s.host = .access (.read width off) :: rest ∧
        hostTurn s = recordRead (memRead width off { s with host := rest }).1 (memRead width off { s with host := rest }).2) ∨
      (∃ width off v rest, s.host = .access (.write width off v) :: rest ∧
        hostTurn s = memWrite width off v { s with host := rest }) ∨
      (∃ rest, s.host = .sync :: rest ∧ hostTurn s = syncOnce (statusWord s) rest s) := by
  unfold hostTurn
  match s.host with
  | [] => exact .inl ⟨rfl, rfl⟩
  | .access (.read width off) :: rest => exact .inr (.inl ⟨width, off, rest, rfl, rfl⟩)
  | .access (.write width off v) :: rest => exact .inr (.inr (.inl ⟨width, off, v, rest, rfl, rfl⟩))
  | .sync :: rest => exact .inr (.inr (.inr ⟨rest, rfl, rfl⟩))

/-- Bit 0 of a STATUS read is BUSY (spec/10 R29). -/
theorem showsBusy_statusWord (s : State) : showsBusy (statusWord s) = s.busy := by
  simp only [showsBusy, statusWord, BitVec.getLsbD_or, BitVec.getLsbD_shiftLeft, BitVec.getLsbD_setWidth,
    BitVec.getLsbD_ofBool]
  simp

/-- The engine's turn ends with no command pending. -/
theorem engineTurn_not_busy {s t : State} (h : engineTurn s = .next t) : t.busy = false := by
  rcases engineTurn_cases h with ⟨hb, rfl⟩ | ⟨-, i, -, he⟩ | ⟨-, e, -, rfl⟩
  · exact hb
  · rw [exec_eq] at he
    injection he with he
    subst he
    simp
  · rfl

/-- A run of k + 1 steps of any machine is a step and then a run of k. -/
theorem run_succ_eq (M : Host.Core) (k : Nat) (s : M.State) : M.run (k + 1) s =
    match M.step s with
    | .next t => M.run k t
    | .fault r => .fault r
    | .refused r => .refused r := rfl

/-- A run of k + 1 steps is a step and then a run of k. -/
theorem core_run_succ (k : Nat) (s u : State) (h : step s = .next u) : core.run (k + 1) s = core.run k u := by
  have e := run_succ_eq core k s
  rw [show core.step s = .next u from h] at e
  exact e

/-- The host's turn takes nothing off the schedule. -/
theorem hostTurn_sched (s : State) : (hostTurn s).sched = s.sched := by
  rcases hostTurn_cases s with ⟨-, e'⟩ | ⟨w, off, rest, -, e'⟩ | ⟨w, off, v, rest, -, e'⟩ | ⟨rest, -, e'⟩ <;> rw [e']
  · rcases memRead_cases w off { s with host := rest } with ⟨-, e⟩ | ⟨r, -, ⟨-, -, e⟩ | ⟨-, e⟩⟩ <;> simp [e]
  · rcases memWrite_cases w off v { s with host := rest } with
      ⟨-, e⟩ | ⟨-, -, e⟩ | ⟨-, -, e⟩ | ⟨r, -, -, -, ⟨-, e⟩ | ⟨-, e⟩⟩ <;> rw [e]
    · simp
    · rfl
    · simp
    · cases r <;> try rfl
      simp only [acceptWrite]
      split <;> simp
  · unfold syncOnce
    split <;> rfl

end Sys2Proof.Machine
end

