-- ==== Sys2Proof/Tests/Slice0.lean ====
section
/-! SUPPORT. The model's own tests, with values from spec/95_test_vectors.md, and a witness for the hypotheses of every
statement that has some. -/

namespace Sys2Proof.Tests

open Sys2Proof.Machine Sys2Proof.Spec

/-! ### Helpers -/

/-- An idle state with every register and entry 0 and L = 2^l. -/
def st (l : BitVec 3) : State where
  busy := false
  err := false
  errcode := 0
  log2l := l
  cmd := 0
  pend := 0
  arg := 0
  res := 0
  pk := 0
  sb := Vector.replicate 64 0
  lb := Vector.replicate 25 0
  rp := Vector.replicate 64 0
  sp := Vector.replicate 5 0
  sched := []
  host := []
  reads := []
  draws := 0

/-- `s` with the word pending, as an accepted CMD write leaves it. -/
def pending (c : Word) (s : State) : State := { s with busy := true, cmd := c, pend := c }

/-- `s` with the first entries of SB, RP, LB or SP set. -/
def withSb (vs : List Word) (s : State) : State := { s with sb := Vector.ofFn fun z : Fin 64 => vs.getD z.val 0 }
def withRp (vs : List Word) (s : State) : State := { s with rp := Vector.ofFn fun z : Fin 64 => vs.getD z.val 0 }
def withLb (vs : List Word) (s : State) : State := { s with lb := Vector.ofFn fun i : Fin 25 => vs.getD i.val 0 }
def withSp (vs : List Word) (s : State) : State := { s with sp := Vector.ofFn fun x : Fin 5 => vs.getD x.val 0 }

/-- What `f` sees after one step. -/
def after {α : Type} (f : State → α) (s : State) : Option α :=
  match step s with
  | .next t => some (f t)
  | .fault _ => none
  | .refused _ => none

/-- BUSY, ERR and ERRCODE. -/
def flags (s : State) : Bool × Bool × BitVec 4 := (s.busy, s.err, s.errcode)

/-- An error recorded, with its code, and BUSY clear. -/
def failed (code : BitVec 4) : Bool × Bool × BitVec 4 := (false, true, code)

/-! ### WellFormed: each check refuses an ill-formed term (spec/30 R76) -/

theorem test_wellFormed_refuses_pack1_64 : (Instr.pack1 64).wellFormed = false := by decide
theorem test_wellFormed_refuses_unpk1_64 : (Instr.unpk1 64).wellFormed = false := by decide
theorem test_wellFormed_allows_slot_63 : (Instr.pack1 63).wellFormed = true := by decide

/-! ### Decode: words written out from spec/30 R70 and R72 -/

theorem test_decode_pars1 : decode 0b0001#64 = .ok .pars1 := by decide
theorem test_decode_parsp : decode 0b0010#64 = .ok .parsp := by decide
theorem test_decode_pars : decode 0b0011#64 = .ok .pars := by decide
theorem test_decode_parl : decode 0b0100#64 = .ok .parl := by decide
theorem test_decode_pack1 : decode 0b000011_0000_0101#64 = .ok (.pack1 3) := by decide
theorem test_decode_packa : decode 0b0110#64 = .ok .packa := by decide
theorem test_decode_unpk1 : decode 0b111110_0000_0111#64 = .ok (.unpk1 62) := by decide
theorem test_decode_unpka : decode 0b1000#64 = .ok .unpka := by decide
theorem test_decode_s2h : decode 0b1001#64 = .ok .s2h := by decide
theorem test_decode_h2s : decode 0b1010#64 = .ok .h2s := by decide

/-- spec/95 E1 to E8, with the check of spec/30 R80 that fails. -/
theorem test_decode_errors :
    decode 0x0#64 = .error .reservedOp ∧ decode 0xB#64 = .error .reservedOp ∧ decode 0xF#64 = .error .reservedOp ∧
    decode 0x103#64 = .error .straySlot ∧ decode 0x15#64 = .error .reservedBit ∧
    decode 0x4005#64 = .error .reservedBit ∧ decode 0x8000000000000002#64 = .error .reservedBit ∧
    decode 0x108#64 = .error .straySlot := by decide

/-- The table word, through the byte lanes; a word too short for the format is none. -/
theorem test_decodeTableWord :
    decodeTableWord 64 0x305 = some (.pack1 3) ∧ decodeTableWord 64 0xB = none ∧
    decodeBytes [0x05, 0x03] = .error .truncated := by decide

/-- spec/30 R76. -/
theorem test_assemble :
    assemble "PACK1 63" = some (.pack1 63) ∧ assemble "H2S" = some .h2s ∧ assemble "PACK1 64" = none ∧
    (Stmt.wr (.lb (Loc.laneIndex 4 2)) 0x3F#64).text = "wr LB[14], 0x3f" := by decide

/-- spec/30 R77: a lane's second spelling, binary and hexadecimal operands, a word that does not fit. -/
theorem test_read_statements :
    Stmt.read "wr LB(4,2), 0b101" = some (.wr (.lb 14) 5) ∧ Stmt.read "cmd UNPK1 3" = some (.cmd (.unpk1 3)) ∧
    Stmt.read "wr SP[4], 0xFfFFFFFFFFFFFFFF" = some (.wr (.sp 4) 0xFFFFFFFFFFFFFFFF) ∧
    Stmt.read "wr PK, 0x10000000000000000" = none ∧ Stmt.read "rd RP[63]" = some (.rd (.rp 63)) := by decide

/-- A table word placed by `withFetchWord` runs as the first command after reset. -/
theorem test_withFetchWord_runs_after_reset :
    step (State.reset.withFetchWord 64 0x1) = exec .pars1 { State.reset with busy := true, cmd := 1, pend := 1 } := by
  rfl

/-! ### Commands: one step each -/

-- spec/95 X6, X9
theorem test_pars1 : after (·.res) (pending 0x1 { st 6 with arg := 0x0AAAAAA }) = some 0x0A := by decide
theorem test_pars1_invalid :
    after (fun t => (flags t, t.res)) (pending 0x1 { st 6 with arg := 0x2000000, res := 7 }) =
      some (failed 4, 7) := by decide

-- spec/95 X13, X14
theorem test_parsp :
    after (·.pk) (pending 0x2 (withSb [0x1, 0x23, 0x405, 0x8421] { st 2 with pk := 0xFFFFFFFFFFFFFFFF })) =
      some 0x1041 := by decide
theorem test_parsp_lsize : after flags (pending 0x2 (st 4)) = some (failed 2) := by decide

-- spec/95 X18 (with RP[2] kept), X19
theorem test_pars :
    after (fun t => (t.rp[0], t.rp[1], t.rp[2]))
        (pending 0x3 (withSb [0x1FFFFFF, 0x0AAAAAA, 1] (withRp [9, 9, 9] (st 1)))) =
      some (0x1F, 0x0A, 9) := by decide
theorem test_pars_invalid :
    after (fun t => (flags t, t.rp[0])) (pending 0x3 (withSb [1, 0x4000000] (withRp [9] (st 1)))) =
      some (failed 4, 9) := by decide

-- spec/95 X20, X23
theorem test_parl :
    after (·.sp.toList)
        (pending 0x4 (withLb [1, 0, 1, 0, 0, 1, 1, 0, 0, 0, 0, 0, 0, 0, 0, 0, 0, 0, 0, 1] (st 0))) =
      some [0, 1, 1, 0, 1] := by decide
theorem test_parl_invalid :
    after flags (pending 0x4 (withLb [0, 0, 0, 0, 0, 0, 0, 0x100] (st 3))) = some (failed 4) := by decide

-- spec/95 K2, K6
theorem test_pack1 :
    after (·.pk) (pending 0x705 { st 6 with arg := 31, pk := 0xFFFFFFFFFFFFFFFF }) = some 0x000000F800000000 := by
  decide
theorem test_pack1_slot_before_value : after flags (pending 0x805 { st 6 with arg := 32 }) = some (failed 3) := by
  decide

-- spec/95 K10, K12
theorem test_packa :
    after (·.pk) (pending 0x6 (withRp [0, 1, 2, 3, 4, 5, 6, 7] (st 3))) = some 0x000000398A418820 := by decide
theorem test_packa_invalid : after flags (pending 0x6 (withRp [1, 1, 32, 1] (st 2))) = some (failed 4) := by decide

-- spec/95 K17, K18
theorem test_unpk1 : after (·.res) (pending 0x207 { st 6 with pk := 0x123456789ABCDEF0 }) = some 0x17 := by decide
theorem test_unpk1_slot :
    after (fun t => (flags t, t.res)) (pending 0x807 { st 6 with pk := 0xFFFFFFFFFFFFFFFF, res := 3 }) =
      some (failed 3, 3) := by decide

-- spec/95 K21, K19
theorem test_unpka :
    after (fun t => t.rp.toList.take 8) (pending 0x8 { st 3 with pk := 0x123456789ABCDEF0 }) =
      some [0x10, 0x17, 0x17, 0x19, 0x0B, 0x0D, 0x02, 0x0F] := by decide
theorem test_unpka_keeps_rest :
    after (fun t => (t.rp[0], t.rp[1])) (pending 0x8 (withRp [9, 9] { st 0 with pk := 0xFFFFFFFFFFFFFFE1 })) =
      some (1, 9) := by decide

-- spec/95 A3, A5
theorem test_s2h :
    after (·.sp.toList) (pending 0x9 (withRp [1, 2, 4, 8, 16, 1, 2, 4] (st 3))) =
      some [0x21, 0x42, 0x84, 0x08, 0x10] := by decide
theorem test_s2h_invalid : after flags (pending 0x9 (withRp [0, 0x20, 0, 0] (st 2))) = some (failed 4) := by decide

-- spec/95 A8, A10
theorem test_h2s_top_bit :
    after (fun t => (t.rp[63], t.rp[62])) (pending 0xA (withSp [0x8000000000000000] (st 6))) = some (1, 0) := by
  decide
theorem test_h2s_rebuilds_rows :
    after (fun t => t.rp.toList.take 5) (pending 0xA (withRp [0x1F, 0x1F, 0x1F, 0x1F, 0x1F] (st 2))) =
      some [0, 0, 0, 0, 0x1F] := by decide

/-- spec/95 E1 and spec/60 R211: a word of zero is rejected; the first error wins. -/
theorem test_illegal_word :
    after flags (pending 0x0 (st 6)) = some (failed 1) ∧
    after flags (pending 0x0 { st 6 with err := true, errcode := 2 }) = some (failed 2) := by decide

/-! ### Host accesses: spec/95 H1, H4, H6 to H15 -/

theorem test_reset_reads :
    (memRead 8 0x000 State.reset).1 = 0 ∧ (memRead 8 0x008 State.reset).1 = 6 ∧
    (memRead 8 0x028 State.reset).1 = 0 := by decide
theorem test_read_reserved :
    memRead 8 0x3C8 (st 6) = (0, { st 6 with err := true, errcode := 7 }) := by decide
theorem test_narrow_write : memWrite 4 0x018 5 (st 6) = { st 6 with err := true, errcode := 7 } := by decide
theorem test_write_res : memWrite 8 0x020 5 (st 6) = { st 6 with err := true, errcode := 7 } := by decide
theorem test_write_status :
    memWrite 8 0x000 0x1 { st 6 with err := true, errcode := 2 } = { st 6 with err := true, errcode := 2 } ∧
    memWrite 8 0x000 0x2 { st 6 with err := true, errcode := 2, busy := true } = { st 6 with busy := true } := by decide
theorem test_write_cfg :
    memWrite 8 0x008 0xFFFFFFFFFFFFFFFB (st 6) = st 3 ∧
    memWrite 8 0x008 0xF (st 4) = { st 4 with err := true, errcode := 5 } := by decide
theorem test_write_busy :
    memWrite 8 0x010 0x6 (pending 0x1 (st 6)) = { pending 0x1 (st 6) with err := true, errcode := 6 } ∧
    memWrite 8 0x030 0x6 (pending 0x1 (st 6)) = { pending 0x1 (st 6) with err := true, errcode := 7 } := by decide
theorem test_busy_read_draws :
    memRead 8 0x028 (pending 0x1 (st 6)) = (Config.busyRead 0, { pending 0x1 (st 6) with draws := 1 }) := by rfl

/-! ### Witnesses: each hypothesis of each statement is met, at the boundary of its clause -/

theorem witness_DecodeOfEncodeIsIdentity : (Instr.unpk1 63).wellFormed = true := by decide

theorem witness_DecodedWordIsItsEncoding : decode 0x3F05#64 = .ok (.pack1 63) := by decide

/-- Both sides of the disjunction, a word of a row and a word of none. -/
theorem witness_WordMatchesOneRowOrRaisesOpcode :
    (pending 0x3F07 (st 6)).busy = true ∧ (pending 0x4007 (st 6)).busy = true ∧
    decode 0x3F07 = .ok (.unpk1 63) ∧ ∀ r ∈ opcodeRows, (0x4007#64) &&& r.2 ≠ r.1 :=
  ⟨rfl, rfl, by decide, by simp [opcodeRows]⟩

theorem witness_StepRunsDecodedCommand :
    engineNext { pending 0xA (st 6) with sched := [.engine, .host] } ∧
      decode (pending 0xA (st 6)).pend = .ok .h2s := ⟨⟨rfl, .inr ⟨[.host], rfl⟩⟩, by decide⟩

theorem witness_FetchWordIsTheNextCommandRun : decodeTableWord 64 0x3F07 = some (.unpk1 63) := by decide

/-- Idle, and a CMD write that ends it. -/
theorem witness_IdleEngineWaitsForCmdWrite :
    (st 6).busy = false ∧
    after (·.busy) { st 6 with host := [writeStmt .cmd 0x6] } = some true := by decide

theorem witness_EngineStepReportsFirstFailingCheck :
    (pending 0x805 (st 6)).busy = true ∧ executeError 0x805 (st 6) = some 3 ∧
    (pending 0x705 (st 6)).busy = true ∧ executeError 0x705 (st 6) = none := by decide

theorem witness_Pars1WritesParityOfArg :
    2 ^ 25 ≤ ({ st 6 with arg := 0x2000000 } : State).arg.toNat ∧
    ({ st 6 with arg := 0x1FFFFFF } : State).arg.toNat < 2 ^ 25 := by decide

set_option maxRecDepth 8000 in
theorem witness_ParspPacksParitiesOfSlices :
    8 < (st 4).laneSize ∧
    ((st 3).laneSize ≤ 8 ∧ ∃ z : Fin 64, z.val < (st 3).laneSize ∧
      2 ^ 25 ≤ (withSb [0, 0, 0, 0, 0, 0, 0, 0x2000000] (st 3)).sb[z].toNat) ∧
    ∀ z : Fin 64, z.val < (st 3).laneSize → (withSb [0x1FFFFFF] (st 3)).sb[z].toNat < 2 ^ 25 := by decide

set_option maxRecDepth 8000 in
theorem witness_ParsWritesParitiesOfSlices :
    (∃ z : Fin 64, z.val < (st 0).laneSize ∧ 2 ^ 25 ≤ (withSb [0x2000000] (st 0)).sb[z].toNat) ∧
    (∀ z : Fin 64, z.val < (st 6).laneSize → (withSb [0x1FFFFFF] (st 6)).sb[z].toNat < 2 ^ 25) ∧
    ∃ z : Fin 64, (st 5).laneSize ≤ z.val := by decide

theorem witness_ParlWritesParitiesOfLanes :
    (∃ i : Fin 25, (st 5).laneSize ≠ 64 ∧ 2 ^ (st 5).laneSize ≤ (withLb [0x100000000] (st 5)).lb[i].toNat) ∧
    (∀ i : Fin 25, (st 5).laneSize = 64 ∨ (withLb [0xFFFFFFFF] (st 5)).lb[i].toNat < 2 ^ (st 5).laneSize) ∧
    ∀ i : Fin 25, (st 6).laneSize = 64 ∨ (withLb [0xFFFFFFFFFFFFFFFF] (st 6)).lb[i].toNat < 2 ^ (st 6).laneSize := by
  decide

theorem witness_Pack1WritesOneSlot :
    8 ≤ 8 ∧ (7 < 8 ∧ 32 ≤ ({ st 6 with arg := 32 } : State).arg.toNat) ∧
    (7 < 8 ∧ ({ st 6 with arg := 31 } : State).arg.toNat < 32) := by decide

set_option maxRecDepth 8000 in
theorem witness_PackaPacksRows :
    8 < (st 4).laneSize ∧
    ((st 3).laneSize ≤ 8 ∧ ∃ z : Fin 64, z.val < (st 3).laneSize ∧
      32 ≤ (withRp [0, 0, 0, 0, 0, 0, 0, 32] (st 3)).rp[z].toNat) ∧
    ∀ z : Fin 64, z.val < (st 3).laneSize → (withRp [31, 31, 31, 31, 31, 31, 31, 31, 99] (st 3)).rp[z].toNat < 32 := by
  decide

theorem witness_Unpk1ReadsOneSlot : 8 ≤ 8 ∧ 7 < 8 := by decide

theorem witness_UnpkaReadsSlots :
    8 < (st 4).laneSize ∧ (st 3).laneSize ≤ 8 ∧ ∃ z : Fin 64, (st 3).laneSize ≤ z.val := by decide

set_option maxRecDepth 8000 in
theorem witness_S2hTransposesRows :
    (∃ z : Fin 64, z.val < (st 2).laneSize ∧ 32 ≤ (withRp [0, 0, 0, 32] (st 2)).rp[z].toNat) ∧
    ∀ z : Fin 64, z.val < (st 2).laneSize → (withRp [31, 31, 31, 31, 32] (st 2)).rp[z].toNat < 32 := by decide

theorem witness_H2sTransposesSheets :
    (∃ x : Fin 5, (st 2).laneSize ≠ 64 ∧ 2 ^ (st 2).laneSize ≤ (withSp [0, 0, 0, 0, 0x10] (st 2)).sp[x].toNat) ∧
    (∀ x : Fin 5, (st 2).laneSize = 64 ∨ (withSp [0xF, 0xF] (st 2)).sp[x].toNat < 2 ^ (st 2).laneSize) ∧
    ∀ x : Fin 5, (st 6).laneSize = 64 ∨ (withSp [0xFFFFFFFFFFFFFFFF] (st 6)).sp[x].toNat < 2 ^ (st 6).laneSize := by
  decide

theorem witness_ParityIsLinear :
    ([0x1, 0x2, 0x1FFFFFC] : List SliceValue).Pairwise (fun a b => a &&& b = 0) ∧
    ([fun _ => 1, fun i => BitVec.ofNat 64 (2 * i)] : List (Nat → Word)).Pairwise (fun a b => ∀ i, a i &&& b i = 0) := by
  refine ⟨by decide, List.Pairwise.cons (fun b hb i => ?_) (List.Pairwise.cons (by simp) List.Pairwise.nil)⟩
  rw [List.mem_singleton] at hb
  subst hb
  apply BitVec.eq_of_toNat_eq
  simp [Nat.and_comm 1]

/-- The state of spec/95 P1 in both layouts. -/
def bothLayouts : State :=
  withSb [0x3FF, 0x421, 0x1000000, 0xC63]
    (withLb [0xB, 0x9, 1, 1, 1, 0xB, 0x9, 1, 1, 1, 0xA, 0x8, 0, 0, 0, 0, 0, 0, 0, 0, 0, 0, 0, 0, 0x4] (st 2))

theorem witness_BothExtractionRoutesAgree :
    bothLayouts.log2l.toNat ≤ 6 ∧
    (∀ z : Fin 64, z.val < bothLayouts.laneSize → bothLayouts.sb[z].toNat < 2 ^ 25) ∧
    (∀ i : Fin 25, bothLayouts.laneSize = 64 ∨ bothLayouts.lb[i].toNat < 2 ^ bothLayouts.laneSize) ∧
    ∀ (x y : Fin 5) (z : Fin 64), z.val < bothLayouts.laneSize →
      bothLayouts.sb[z].getLsbD (5 * y.val + x.val) = (bothLayouts.laneAt (x.val + 5 * y.val)).getLsbD z.val := by
  decide

theorem witness_UnpackOfPackIsIdentity :
    (st 3).laneSize ≤ 8 ∧
    (∀ z : Fin 64, z.val < (st 3).laneSize → (withRp [31, 31, 31, 31, 31, 31, 31, 31, 99] (st 3)).rp[z].toNat < 32) ∧
    ∀ z : Fin 64, z.val < (st 3).laneSize → (withSb [0x1FFFFFF] (st 3)).sb[z].toNat < 2 ^ 25 := by decide

theorem witness_UnpackOfOneSlotPacked :
    7 < 8 ∧ ({ st 6 with arg := 31 } : State).arg.toNat < 32 ∧ (0 < 8 ∧ 8 ≤ 8) := by decide

theorem witness_AxisConversionsAreInverse :
    (st 6).log2l.toNat ≤ 6 ∧
    (∀ z : Fin 64, z.val < (st 6).laneSize → (withRp [31, 30] (st 6)).rp[z].toNat < 32) ∧
    ∀ x : Fin 5, (st 6).laneSize = 64 ∨ (withSp [0x8000000000000001] (st 6)).sp[x].toNat < 2 ^ (st 6).laneSize := by
  decide

/-- Two states that agree on RP[0..3] and differ in RP[4] and in SP. -/
theorem witness_CommandReadsOnlyItsOperands :
    sameOperands .s2h (withRp [1, 3, 5, 0, 9] (st 2)) (withSp [7] (withRp [1, 3, 5, 0, 8] (st 2))) ∧
    (∃ s', exec .s2h (withRp [1, 3, 5, 0, 9] (st 2)) = .next s' ∧ s'.err = false) ∧
    (∃ u', exec .s2h (withSp [7] (withRp [1, 3, 5, 0, 8] (st 2))) = .next u' ∧ u'.err = false) ∧
    writes .s2h 2 (.sp 4) = true :=
  ⟨⟨rfl, by decide⟩, ⟨_, rfl, by decide⟩, ⟨_, rfl, by decide⟩, rfl⟩

theorem witness_CommandChangesOnlyItsDestination :
    (∃ t, exec .unpka (st 3) = .next t) ∧ writes .unpka 3 (.rp 7) = true ∧ writes .unpka 3 (.rp 8) = false :=
  ⟨⟨_, rfl⟩, by decide, by decide⟩

/-- The last byte of RP[0] is written and the first of RP[1] is outside, at L = 1. -/
theorem witness_CommandChangesOnlyItsDestination_byte :
    ∀ r : Loc, writes .unpka 0 r = true ∨ r = .status → 0x408 < r.offset ∨ r.offset + 8 ≤ 0x408 := by
  intro r h
  rcases h with h | rfl
  · cases r <;> simp_all [writes, Loc.offset]
  · decide

theorem witness_CommandsWriteValidParities :
    (∃ t, exec .unpka { st 0 with pk := 31 } = .next t ∧ t.rp[(0 : Fin 64)] ≠ (st 0).rp[(0 : Fin 64)]) ∧
    ∃ t, exec .s2h (withRp [31] (st 0)) = .next t ∧ t.sp[(4 : Fin 5)] ≠ (st 0).sp[(4 : Fin 5)] :=
  ⟨⟨_, rfl, by decide⟩, ⟨_, rfl, by decide⟩⟩

theorem witness_EveryStepKeepsInvariant :
    (pending 0x207 (st 6)).Inv ∧ ∃ t, step (pending 0x207 (st 6)) = .next t := ⟨by decide, _, rfl⟩

/-- Reset alone, and with a host read attempted. -/
theorem witness_ResetDrawsBuffersAnew :
    resetNext { pending 0x1 (st 2) with sched := [.reset] } ∧
    resetNext { st 2 with sched := [.resetHost], host := [readStmt .pk] } :=
  ⟨⟨[], .inl rfl⟩, ⟨[], .inr rfl⟩⟩

/-- The three ways out: kept, reset, cleared. -/
theorem witness_ErrorRecordIsSticky :
    after flags { st 6 with err := true, errcode := 2, host := [writeStmt .res 1] } = some (failed 2) ∧
    after flags { st 6 with err := true, errcode := 2, sched := [.reset] } = some (false, false, 0) ∧
    after flags { st 6 with err := true, errcode := 2, host := [writeStmt .status 2] } = some (false, false, 0) := by
  decide

theorem witness_StatusReadsFieldsAndClears : (2#64).getLsbD 1 = true ∧ (1#64).getLsbD 1 = false ∧
    ({ st 6 with err := true, errcode := 2 } : State).err = true := by decide

theorem witness_CfgWriteSetsLaneSizeOrIsRefused :
    (pending 0 (st 6)).busy = true ∧ ((st 6).busy = false ∧ (0xF#64).toNat % 8 = 7) ∧
    ((st 6).busy = false ∧ (0xE#64).toNat % 8 ≠ 7) := by decide

theorem witness_CmdWriteIssuesOrIsRefused :
    (st 6).busy = false ∧ (∀ r ∈ opcodeRows, (0xB#64) &&& r.2 ≠ r.1) ∧ (pending 0 (st 6)).busy = true :=
  ⟨rfl, by simp [opcodeRows], rfl⟩

/-- Each case alone: width, alignment, the edges of the reserved ranges; and RES. -/
theorem witness_BadAccessRecordsAccessError :
    (4 ≠ 8) ∧ 0x004 % 8 ≠ 0 ∧ mapped 0x030 = false ∧ mapped 0x0F8 = false ∧ mapped 0x3C8 = false ∧
    mapped 0x3F8 = false ∧ mapped 0x628 = false ∧ mapped 0xFF8 = false ∧ mapped 0x1000 = false ∧
    mapped 0x020 = true := by decide

theorem witness_BusyWritesAreDropped :
    (pending 0x1 (st 6)).busy = true ∧ Loc.sp 4 ≠ .status ∧ Loc.sp 4 ≠ .res ∧ (2#64).getLsbD 1 = true := by decide

theorem witness_BusyDataReadsAreFree :
    (pending 0x1 (st 6)).busy = true ∧ Loc.rp 63 ≠ .status ∧ Loc.rp 63 ≠ .cfg ∧ Loc.rp 63 ≠ .cmd := by decide

theorem witness_IdleWriteStoresInOneEntry :
    (st 6).busy = false ∧ Loc.lb 24 ≠ .status ∧ Loc.lb 24 ≠ .cfg ∧ Loc.lb 24 ≠ .cmd ∧ Loc.lb 24 ≠ .res ∧
    Loc.sb 63 ≠ .lb 24 ∧ (0x3C8 < (Loc.lb 24).offset ∨ (Loc.lb 24).offset + 8 ≤ 0x3C8) := by decide

/-- RES is read while idle; and an engine step that leaves a result in it. -/
theorem witness_IdleReadsAreExact :
    ({ st 6 with res := 7 } : State).busy = false ∧ (memRead 8 Loc.res.offset { st 6 with res := 7 }).1 = 7 ∧
    ∃ t, engineTurn (pending 0x707 { st 6 with pk := 0x000000F800000000 }) = .next t :=
  ⟨rfl, by decide, _, rfl⟩

theorem witness_HostAccessReportsFirstFailingCheck :
    hostWriteError 8 0x030 0 (pending 0 (st 6)) = some 7 ∧ hostWriteError 8 0x008 7 (pending 0 (st 6)) = some 6 ∧
    hostWriteError 8 0x008 7 (st 6) = some 5 ∧ hostWriteError 8 0x000 2 (pending 0 (st 6)) = none ∧
    hostWriteError 8 0x620 2 (st 6) = none := by decide

theorem witness_AddressMapIsExact : mapped 0x3C8 = false ∧ locate 0x3C0 = some (.lb 24) := by decide

theorem witness_WindowIsLittleEndian : 7 < 8 ∧ 0xFFF < 0x1000 ∧ mapped (8 * (0xFFF / 8)) = false := by decide

theorem witness_BusReachesWindowOnly :
    0xFFF < 0x1000 ∧ Config.pxeBase + 0x1000 ≤ Config.pxeBase + 0x1000 := ⟨by decide, Nat.le_refl _⟩

theorem witness_HostTurnMakesNextAccess :
    ({ st 6 with sched := [.host], host := [readStmt .pk] } : State).host = .access (.read 8 0x028) :: [] ∧
    ({ st 6 with sched := [.host], host := [writeStmt .pk 5] } : State).host = .access (.write 8 0x028 5) :: [] := by
  decide

theorem witness_SyncPollsUntilIdle :
    ({ st 6 with sched := [.host], host := [.sync, readStmt .pk] } : State).sched = .host :: [] ∧
    ({ st 6 with sched := [.host], host := [.sync, readStmt .pk] } : State).host = .sync :: [readStmt .pk] := by decide

/-- A host write while a command is pending leaves it pending. -/
theorem witness_PendingCommandIsFrozen :
    after (·.busy) { pending 0x1 (st 6) with sched := [.host], host := [writeStmt .arg 5] } = some true := by decide

theorem witness_PendingCommandRunsAfterItsLatency :
    (pending 0x1 (st 6)).busy = true ∧
    ∀ a ∈ ({ pending 0x1 (st 6) with sched := [.host, .host, .engine, .reset] } : State).sched.takeWhile (· ≠ .engine),
      a = .host := by decide

theorem witness_SecondCommandIsLostOrAccepted :
    (st 6).busy = false ∧ (st 6).err = false ∧
    ({ st 6 with host := [writeStmt .cmd 1, writeStmt .cmd 6] } : State).host =
      .access (.write 8 0x010 1) :: .access (.write 8 0x010 6) :: [] := by decide

theorem witness_SyncDisciplineAvoidsBusy :
    ({ st 6 with host := [writeStmt .arg 5, writeStmt .cmd 1, .sync, readStmt .res] } : State).KeepsProtocol ∧
    ({ pending 0x1 (st 6) with host := [.sync, readStmt .res] } : State).KeepsProtocol := by decide

end Sys2Proof.Tests
end

section
/-! SUPPORT. The invariant of PXE's registers, kept operation by operation; and what commands leave in RP and SP. -/

namespace Sys2Proof.Machine

/-! ### The invariant under the named operations -/

/-- A host's remaining script is no register: taking a statement off it keeps the invariant. -/
theorem inv_withHost {s : State} (rest : List HostStmt) (h : s.Inv) : State.Inv { s with host := rest } := h

/-- Recording an error leaves ERR = 1 with a code of 1 to 7, the old one or the new (spec/60 R201, R211). -/
theorem inv_recordError {s : State} (c : ErrCode) (h : s.Inv) : (recordError c s).Inv := by
  obtain ⟨-, hcode, hl, hpend, hres⟩ := h
  have hcode' : 1 ≤ (recordError c s).errcode.toNat ∧ (recordError c s).errcode.toNat ≤ 7 := by
    rw [recordError_errcode]
    split
    · exact hcode ‹_›
    · exact c.code_range
  exact ⟨by simp, fun _ => hcode', by simpa using hl, by simpa using hpend, by simpa using hres⟩

theorem inv_clearError {s : State} (h : s.Inv) : (clearError s).Inv := by
  obtain ⟨-, -, hl, hpend, hres⟩ := h
  exact ⟨fun _ => rfl, by simp, hl, hpend, hres⟩

theorem inv_endCommand {s : State} (h : s.Inv) : (endCommand s).Inv := by
  obtain ⟨hzero, hcode, hl, -, hres⟩ := h
  exact ⟨hzero, hcode, hl, by simp, hres⟩

theorem inv_setRes {s : State} {v : Word} (hv : v.toNat < 32) (h : s.Inv) : (setRes v s).Inv := by
  obtain ⟨hzero, hcode, hl, hpend, -⟩ := h
  exact ⟨hzero, hcode, hl, hpend, hv⟩

theorem inv_setRows {s : State} (L : Nat) (f : Nat → Word) (h : s.Inv) : (setRows L f s).Inv := by
  simpa [State.Inv] using h

/-- A CMD write puts one word in CMD and PEND (spec/10 R31). -/
theorem inv_issue {s : State} (v : Word) (h : s.Inv) : (issue v s).Inv := by
  obtain ⟨hzero, hcode, hl, -, hres⟩ := h
  exact ⟨hzero, hcode, hl, fun _ => rfl, hres⟩

theorem inv_applyReset (s : State) : (applyReset s).Inv := by
  simp [State.Inv]

/-! ### The invariant under the engine's turn -/

/-- A RowValue zero-extended to 64 bits is below 32. -/
theorem rowValue_setWidth_lt (v : RowValue) : (v.setWidth 64).toNat < 32 := by
  rw [BitVec.toNat_setWidth_of_le (by decide)]
  exact v.isLt

/-- What a command performs keeps the invariant: only PARS1 and UNPK1 write RES, each a RowValue. -/
theorem inv_performOf (i : Instr) {s : State} (h : s.Inv) : (performOf i s).Inv := by
  cases i with
  | pars1 => exact inv_setRes (rowValue_setWidth_lt _) h
  | unpk1 z => exact inv_setRes (unpack_lt _ _) h
  | pars | unpka | h2s => rw [performOf]; exact inv_setRows _ _ h
  | parsp | parl | pack1 z | packa | s2h => exact h

theorem inv_exec {i : Instr} {s t : State} (h : s.Inv) (he : exec i s = .next t) : t.Inv := by
  obtain ⟨-, rfl⟩ | ⟨c, -, rfl⟩ := exec_cases he
  · exact inv_endCommand (inv_performOf i h)
  · exact inv_endCommand (inv_recordError c h)

theorem inv_engineTurn {s t : State} (h : s.Inv) (he : engineTurn s = .next t) : t.Inv := by
  obtain ⟨-, rfl⟩ | ⟨-, i, -, hx⟩ | ⟨-, e, -, rfl⟩ := engineTurn_cases he
  · exact h
  · exact inv_exec h hx
  · exact inv_endCommand (inv_recordError .opcode h)

/-! ### The invariant under the host's turn -/

/-- A host read records E_ACCESS, draws a free value, or changes nothing. -/
theorem inv_memRead (width off : Nat) {s : State} (h : s.Inv) : (memRead width off s).2.Inv := by
  obtain ⟨-, e⟩ | ⟨r, -, ⟨-, -, e⟩ | ⟨-, e⟩⟩ := memRead_cases width off s <;> rw [e]
  · exact inv_recordError .access h
  · exact h
  · exact h

/-- The one write that moves LOG2L refuses the field 7 (spec/10 R30, spec/60 R206). -/
theorem inv_acceptWrite_cfg (v : Word) {s : State} (h : s.Inv) : (acceptWrite .cfg v s).Inv := by
  simp only [acceptWrite]
  split
  case isTrue => exact inv_recordError .cfg h
  case isFalse h7 =>
    obtain ⟨hzero, hcode, -, hpend, hres⟩ := h
    exact ⟨hzero, hcode, by bv_omega, hpend, hres⟩

theorem inv_acceptWrite (r : Loc) (v : Word) {s : State} (h : s.Inv) : (acceptWrite r v s).Inv := by
  cases r with
  | cfg => exact inv_acceptWrite_cfg v h
  | cmd => exact inv_issue v h
  | status | arg | res | pk | sb z | lb k | rp z | sp x => exact h

theorem inv_memWrite (width off : Nat) (v : Word) {s : State} (h : s.Inv) : (memWrite width off v s).Inv := by
  obtain ⟨-, e⟩ | ⟨-, -, e⟩ | ⟨-, -, e⟩ | ⟨r, -, -, -, ⟨-, e⟩ | ⟨-, e⟩⟩ := memWrite_cases width off v s <;> rw [e]
  · exact inv_recordError .access h
  · exact inv_clearError h
  · exact h
  · exact inv_recordError .busy h
  · exact inv_acceptWrite r v h

theorem inv_syncOnce (v : Word) (rest : List HostStmt) {s : State} (h : s.Inv) : (syncOnce v rest s).Inv := by
  unfold syncOnce
  split
  · exact h
  · exact inv_withHost rest h

theorem inv_hostTurn {s : State} (h : s.Inv) : (hostTurn s).Inv := by
  obtain ⟨-, e⟩ | ⟨w, off, rest, -, e⟩ | ⟨w, off, v, rest, -, e⟩ | ⟨rest, -, e⟩ := hostTurn_cases s <;> rw [e]
  · exact h
  · exact inv_memRead w off (inv_withHost rest h)
  · exact inv_memWrite w off v (inv_withHost rest h)
  · exact inv_syncOnce _ rest h

/-! ### What commands leave in RP and SP -/

/-- RP[z] <- f z for z in [0, L) changes no entry from L on, and leaves RowValues where `f` gives them. -/
theorem setRows_changed {L : Nat} {f : Nat → Word} (hf : ∀ z, (f z).toNat < 32) {s : State} {z : Fin 64}
    (h : (setRows L f s).rp[z] ≠ s.rp[z]) : z.val < L ∧ (setRows L f s).rp[z].toNat < 32 := by
  rw [setRows_rp_getElem] at h ⊢
  by_cases hz : z.val < L
  · simpa [hz] using hf z.val
  · simp [hz] at h

/-- Every row H2S makes is a RowValue (spec/42 R162). -/
theorem rowOfSheets_lt (sh : Nat → Word) (z : Nat) : (rowOfSheets sh z).toNat < 32 :=
  toNat_lt_of_getLsbD (n := 5) fun x hx => by simp [rowOfSheets_getLsbD, Nat.not_lt.mpr hx]

/-- Lanes that passed PARL's check have no bit at L or above, and neither has their parity (spec/40 R104). -/
theorem laneParity_getLsbD_of_lanesValid {s : State} (hv : s.lanesValid = true) {x k : Nat} (hx : x < 5)
    (hk : s.laneSize ≤ k) : (laneParity s.laneAt x).getLsbD k = false := by
  have hlane : ∀ i < 25, (s.laneAt i).getLsbD k = false := fun i hi =>
    getLsbD_of_validLane ((allBelow_iff _ _).mp hv i hi) hk
  rw [laneParity_getLsbD, hlane x (by omega), hlane (x + 5) (by omega), hlane (x + 10) (by omega),
    hlane (x + 15) (by omega), hlane (x + 20) (by omega)]
  rfl

/-- PARS, UNPKA and H2S write RP, each a RowValue below L alone; no other command changes it (spec/10 R27). -/
theorem performOf_rp_changed (i : Instr) {s : State} {z : Fin 64} (h : (performOf i s).rp[z] ≠ s.rp[z]) :
    z.val < s.laneSize ∧ (performOf i s).rp[z].toNat < 32 := by
  cases i with
  | pars => exact setRows_changed (fun _ => rowValue_setWidth_lt _) h
  | unpka => exact setRows_changed (unpack_lt s.pk) h
  | h2s => exact setRows_changed (rowOfSheets_lt s.sheetAt) h
  | pars1 | parsp | parl | pack1 z | packa | unpk1 z | s2h => exact absurd rfl h

/-- PARL, of lanes that passed its check, and S2H write SP with no bit at L or above; no other command changes it
(spec/10 R28). -/
theorem performOf_sp_changed (i : Instr) {s : State} (hc : firstFailing (checksOf i s) = none) {x : Fin 5}
    (h : (performOf i s).sp[x] ≠ s.sp[x]) {k : Nat} (hk : s.laneSize ≤ k) :
    (performOf i s).sp[x].getLsbD k = false := by
  cases i with
  | parl =>
    have hv : s.lanesValid = true := by
      by_contra hv
      simp [checksOf, hv, firstFailing] at hc
    rw [performOf, setSheets_sp_getElem]
    exact laneParity_getLsbD_of_lanesValid hv x.isLt hk
  | s2h =>
    rw [performOf, setSheets_sp_getElem, sheetOfRows_getLsbD]
    simp [Nat.not_lt.mpr hk]
  | pars | unpka | h2s => simp [performOf] at h
  | pars1 | parsp | pack1 z | packa | unpk1 z => exact absurd rfl h

end Sys2Proof.Machine

/-! ### The obligations -/

namespace Sys2Proof.StateProofs

open Sys2Proof.Machine

/-- Settles O29: the engine's turn, the host's turn and reset each keep the invariant. -/
theorem everyStepKeepsInvariant : Obligations.EveryStepKeepsInvariant := by
  intro s t h hs
  have hd : (dropTurn s).Inv := h
  obtain ⟨-, he⟩ | ⟨-, rfl⟩ | ⟨-, rfl⟩ | ⟨-, rfl⟩ := step_cases hs
  · exact inv_engineTurn hd he
  · exact inv_hostTurn hd
  · exact inv_applyReset _
  · exact inv_applyReset _

/-- Settles O27: a command that fails changes no entry, and what one performs is valid entry by entry. -/
theorem commandsWriteValidParities : Obligations.CommandsWriteValidParities := by
  intro i s t he
  obtain ⟨hc, rfl⟩ | ⟨c, -, rfl⟩ := exec_cases he
  · exact ⟨fun _ h => performOf_rp_changed i h, fun _ h _ hk => performOf_sp_changed i hc h hk⟩
  · exact ⟨fun z h => by simp at h, fun x h => by simp at h⟩

/-- Settles O30: ERR = 0 with ERRCODE 0, L = 64, no command pending and RES = 0 (spec/10 R35). -/
theorem resetMeetsInvariant : Obligations.ResetMeetsInvariant := by
  refine ⟨fun _ => rfl, ?_, ?_, ?_, ?_⟩ <;> simp [State.reset]

end Sys2Proof.StateProofs
end

section
/-! SUPPORT. The register window: the map and its bytes, what reads and writes leave, the frame of commands, what a
command reads, and what holds still while a command is pending. -/

namespace Sys2Proof.Machine

open Sys2Proof.Spec

/-! ### The map of spec/20 R51 -/

/-- The Boolean map of the statements is the map of the model's laws. -/
theorem mapped_eq_false_iff (off : Nat) : mapped off = false ↔ ¬ Mapped off := by
  rw [← Bool.not_eq_true, mapped, Mapped]
  simp [or_assoc]

theorem locate_eq_none_iff_mapped (off : Nat) : locate off = none ↔ mapped off = false := by
  rw [locate_eq_none_iff, mapped_eq_false_iff]

/-- An access reaches nothing exactly when its width is bad or the map has nothing there (spec/20 R52, R53). -/
theorem reach_eq_none_iff (width off : Nat) : reach width off = none ↔ width ≠ 8 ∨ mapped off = false := by
  rw [reach]
  split
  case isTrue hw => simp [hw, locate_eq_none_iff_mapped]
  case isFalse hw => simp [hw]

/-- Every offset of the map lies in the 4 KiB window and is aligned. -/
theorem offset_aligned_lt (r : Loc) : r.offset % 8 = 0 ∧ r.offset < 0x628 := by
  obtain ⟨h8, h⟩ := mapped_offset r
  exact ⟨h8, by omega⟩

/-! ### The window on the bus and its byte lanes -/

theorem windowOffset_add {off : Nat} (h : off < 0x1000) : windowOffset (Config.pxeBase + off) = some off := by
  rw [windowOffset, if_pos (by omega), Nat.add_sub_cancel_left]

theorem windowOffset_outside {addr : Nat} (h : addr < Config.pxeBase ∨ Config.pxeBase + 0x1000 ≤ addr) :
    windowOffset addr = none :=
  if_neg (by omega)

theorem busByte_add (s : State) {off : Nat} (h : off < 0x1000) : busByte s (Config.pxeBase + off) = byteAt s off := by
  rw [busByte, windowOffset_add h, Option.bind_some]

/-- Byte k of the word at an offset of the map is its lane k (spec/20 R55). -/
theorem byteAt_offset_add (s : State) (r : Loc) {k : Nat} (hk : k < 8) :
    byteAt s (r.offset + k) = some (byteLane (peek s r) k) := by
  obtain ⟨h8, -⟩ := offset_aligned_lt r
  rw [byteAt, show 8 * ((r.offset + k) / 8) = r.offset by omega, show (r.offset + k) % 8 = k by omega, locate_offset,
    Option.map_some]

theorem byteAt_of_not_mapped (s : State) {off : Nat} (h : mapped (8 * (off / 8)) = false) : byteAt s off = none := by
  rw [byteAt, (locate_eq_none_iff_mapped _).mpr h, Option.map_none]

/-- A byte is as before where the one register or entry that has it is. -/
theorem byteAt_congr {s t : State} {off : Nat}
    (h : ∀ r : Loc, r.offset ≤ off → off < r.offset + 8 → peek t r = peek s r) : byteAt t off = byteAt s off := by
  cases hl : locate (8 * (off / 8)) with
  | none => simp only [byteAt, hl, Option.map_none]
  | some r =>
    have hr := offset_of_locate hl
    simp only [byteAt, hl, Option.map_some, h r (by omega) (by omega)]

/-! ### Reads and writes at an offset -/

/-- An access that reaches nothing records E_ACCESS; a read returns 0 (spec/20 R53, spec/60 R208). -/
theorem memRead_of_reach_none {width off : Nat} (h : reach width off = none) (s : State) :
    memRead width off s = (0, refusedAccess s 7) := by
  rw [memRead, h]
  exact congrArg (Prod.mk 0) (recordError_eq .access s)

theorem memWrite_of_reach_none {width off : Nat} (h : reach width off = none) (v : Word) (s : State) :
    memWrite width off v s = refusedAccess s 7 := by
  rw [memWrite, h]
  exact recordError_eq .access s

theorem memWrite_res (v : Word) (s : State) : memWrite 8 Loc.res.offset v s = refusedAccess s 7 := by
  rw [memWrite, reach_offset]
  exact recordError_eq .access s

/-- An idle read is exact and has no effect (spec/20 R52). -/
theorem memRead_idle {s : State} (hb : s.busy = false) (r : Loc) : memRead 8 r.offset s = (peek s r, s) := by
  rw [memRead, reach_offset]
  simp [hb]

/-- An idle write of a register or entry that stores is its accepted write (spec/20 R52). -/
theorem memWrite_idle {s : State} (hb : s.busy = false) {r : Loc} (hr : r.stores = true) (v : Word) :
    memWrite 8 r.offset v s = acceptWrite r v s := by
  rw [memWrite, reach_offset]
  cases r with
  | status | res => cases hr
  | cfg | cmd | arg | pk | sb z | lb i | rp z | sp x => simp [hb]

theorem Loc.stores_of_ne {r : Loc} (h1 : r ≠ .status) (h2 : r ≠ .cfg) (h3 : r ≠ .cmd) (h4 : r ≠ .res) :
    r.stores = true := by
  cases r with
  | status | cfg | cmd | res => contradiction
  | arg | pk | sb z | lb i | rp z | sp x => rfl

theorem acceptWrite_busy {r : Loc} (hr : r.stores = true) (v : Word) (s : State) :
    (acceptWrite r v s).busy = s.busy := by
  rw [acceptWrite_frame v s hr]

/-- The same word stored again changes nothing. -/
theorem acceptWrite_acceptWrite {r : Loc} (hr : r.stores = true) (v : Word) (s : State) :
    acceptWrite r v (acceptWrite r v s) = acceptWrite r v s := by
  cases r with
  | status | cfg | cmd | res => cases hr
  | arg | pk => rfl
  | sb z | lb i | rp z | sp x => simp [acceptWrite]

/-- What a read returns depends on neither the schedule nor the host's script. -/
theorem memRead_fst_withScript (width off : Nat) (s : State) (sch : List Turn) (rest : List HostStmt) :
    (memRead width off { s with sched := sch, host := rest }).1 = (memRead width off s).1 := by
  have hpeek : ∀ r, peek { s with sched := sch, host := rest } r = peek s r := fun r => by cases r <;> rfl
  cases h : reach width off with
  | none => simp [memRead, h]
  | some r =>
    simp only [memRead, h, hpeek]
    split <;> rfl

theorem memRead_reads (width off : Nat) (s : State) : (memRead width off s).2.reads = s.reads := by
  obtain ⟨-, e⟩ | ⟨r, -, ⟨-, -, e⟩ | ⟨-, e⟩⟩ := memRead_cases width off s <;> simp [e]

/-! ### The frame of a command -/

theorem peek_endCommand {r : Loc} (hr : r ≠ .status) (s : State) : peek (endCommand s) r = peek s r := by
  cases r with
  | status => contradiction
  | _ => rfl

theorem peek_recordError {r : Loc} (hr : r ≠ .status) (c : ErrCode) (s : State) :
    peek (recordError c s) r = peek s r := by
  cases r with
  | status => contradiction
  | _ => simp [peek, cfgWord]

theorem peek_setRes_of_ne {r : Loc} (hr : r ≠ .res) (v : Word) (s : State) : peek (setRes v s) r = peek s r := by
  cases r with
  | res => contradiction
  | _ => rfl

theorem peek_setPk_of_ne {r : Loc} (hr : r ≠ .pk) (v : Word) (s : State) : peek (setPk v s) r = peek s r := by
  cases r with
  | pk => contradiction
  | _ => rfl

theorem peek_setRows_of_le {r : Loc} {L : Nat} (hr : ∀ z, r = .rp z → L ≤ z.val) (f : Nat → Word) (s : State) :
    peek (setRows L f s) r = peek s r := by
  cases r with
  | rp z => exact (setRows_rp_getElem L f s z).trans (if_neg (Nat.not_lt.mpr (hr z rfl)))
  | _ => simp [peek, statusWord, cfgWord]

theorem peek_setSheets_of_ne {r : Loc} (hr : ∀ x, r ≠ .sp x) (f : Nat → Word) (s : State) :
    peek (setSheets f s) r = peek s r := by
  cases r with
  | sp x => exact absurd rfl (hr x)
  | _ => rfl

/-- No command writes STATUS as an entry of its own (spec/20 R59). -/
theorem ne_status_of_writes {i : Instr} {log2l : Nat} {r : Loc} (hw : writes i log2l r = true) : r ≠ .status := by
  rintro rfl
  cases i <;> cases hw

/-- What a command performs leaves every register and entry but those it writes (spec/20 R59). -/
theorem peek_performOf_of_not_writes {i : Instr} {s : State} {r : Loc} (h : writes i s.log2l.toNat r = false) :
    peek (performOf i s) r = peek s r := by
  cases i with
  | pars1 | unpk1 z => exact peek_setRes_of_ne (by rintro rfl; cases h) _ s
  | parsp | packa | pack1 z => exact peek_setPk_of_ne (by rintro rfl; cases h) _ s
  | parl | s2h => exact peek_setSheets_of_ne (by rintro x rfl; cases h) _ s
  | pars | unpka | h2s =>
    rw [performOf]
    refine peek_setRows_of_le ?_ _ s
    rintro z rfl
    simpa [writes, State.laneSize] using h

/-- What a command performs changes no field of State but those of RES, PK, RP and SP. -/
theorem performOf_frame (i : Instr) (s : State) :
    performOf i s = { s with
      res := (performOf i s).res, pk := (performOf i s).pk, rp := (performOf i s).rp, sp := (performOf i s).sp } := by
  cases i with
  | pars | unpka | h2s => simp only [performOf, setRows]
  | pars1 | parsp | parl | pack1 z | packa | unpk1 z | s2h => rfl

/-- A command changes no field of State but those of STATUS, RES, PK, RP and SP. -/
theorem exec_frame {i : Instr} {s t : State} (h : exec i s = .next t) :
    t = { s with
      busy := false, err := t.err, errcode := t.errcode, res := t.res, pk := t.pk, rp := t.rp, sp := t.sp } := by
  obtain ⟨-, rfl⟩ | ⟨c, -, rfl⟩ := exec_cases h
  · rw [performOf_frame]
    rfl
  · rw [endCommand_recordError]

/-- A command leaves every register and entry but STATUS and those it writes (spec/20 R59, spec/60 R200). -/
theorem peek_exec_of_not_writes {i : Instr} {s t : State} (h : exec i s = .next t) {r : Loc}
    (hw : writes i s.log2l.toNat r = false) (hr : r ≠ .status) : peek t r = peek s r := by
  obtain ⟨-, rfl⟩ | ⟨c, -, rfl⟩ := exec_cases h
  · rw [peek_endCommand hr, peek_performOf_of_not_writes hw]
  · rw [peek_endCommand hr, peek_recordError hr]

/-! ### What a command reads -/

theorem allBelow_congr {n : Nat} {f g : Nat → Bool} (h : ∀ k < n, f k = g k) : allBelow n f = allBelow n g := by
  induction n with
  | zero => rfl
  | succ n ih => rw [allBelow, allBelow, ih fun k hk => h k (by omega), h n (by omega)]

theorem orBelow_congr {n : Nat} {f g : Nat → Word} (h : ∀ k < n, f k = g k) : orBelow n f = orBelow n g := by
  induction n with
  | zero => rfl
  | succ n ih => rw [orBelow, orBelow, ih fun k hk => h k (by omega), h n (by omega)]

theorem laneSize_congr {s u : State} (h : s.log2l = u.log2l) : s.laneSize = u.laneSize := by
  rw [State.laneSize, State.laneSize, h]

/-- States with the same SB[0..L-1] have the same slice at every index below L. -/
theorem sliceAt_congr {s u : State} (h : ∀ z : Fin 64, z.val < 2 ^ s.log2l.toNat → s.sb[z] = u.sb[z]) :
    ∀ k < s.laneSize, s.sliceAt k = u.sliceAt k := by
  intro k hk
  by_cases hk' : k < 64
  · exact (sliceAt_eq s ⟨k, hk'⟩).trans ((h ⟨k, hk'⟩ hk).trans (sliceAt_eq u ⟨k, hk'⟩).symm)
  · simp [State.sliceAt, hk']

/-- States with the same RP[0..L-1] have the same row at every index below L. -/
theorem rowAt_congr {s u : State} (h : ∀ z : Fin 64, z.val < 2 ^ s.log2l.toNat → s.rp[z] = u.rp[z]) :
    ∀ k < s.laneSize, s.rowAt k = u.rowAt k := by
  intro k hk
  by_cases hk' : k < 64
  · exact (rowAt_eq s ⟨k, hk'⟩).trans ((h ⟨k, hk'⟩ hk).trans (rowAt_eq u ⟨k, hk'⟩).symm)
  · simp [State.rowAt, hk']

theorem laneAt_congr {s u : State} (h : s.lb = u.lb) : s.laneAt = u.laneAt := by
  funext k
  rw [State.laneAt, State.laneAt, h]

theorem sheetAt_congr {s u : State} (h : s.sp = u.sp) : s.sheetAt = u.sheetAt := by
  funext k
  rw [State.sheetAt, State.sheetAt, h]

theorem slicesValid_congr {s u : State} (hl : s.laneSize = u.laneSize)
    (h : ∀ k < s.laneSize, s.sliceAt k = u.sliceAt k) : s.slicesValid = u.slicesValid := by
  rw [State.slicesValid, State.slicesValid, ← hl]
  exact allBelow_congr fun k hk => by rw [h k hk]

theorem rowsValid_congr {s u : State} (hl : s.laneSize = u.laneSize)
    (h : ∀ k < s.laneSize, s.rowAt k = u.rowAt k) : s.rowsValid = u.rowsValid := by
  rw [State.rowsValid, State.rowsValid, ← hl]
  exact allBelow_congr fun k hk => by rw [h k hk]

/-- The checks of a command read nothing but its operands (spec/20 R65). -/
theorem checksOf_congr {i : Instr} {s u : State} (h : sameOperands i s u) : checksOf i s = checksOf i u := by
  cases i with
  | pars1 | pack1 z => simp only [checksOf, show s.arg = u.arg from h]
  | unpk1 z => rfl
  | parsp | pars =>
    have hl := laneSize_congr h.1
    simp only [checksOf, State.laneSizePacks, slicesValid_congr hl (sliceAt_congr h.2), hl]
  | packa | s2h =>
    have hl := laneSize_congr h.1
    simp only [checksOf, State.laneSizePacks, rowsValid_congr hl (rowAt_congr h.2), hl]
  | parl => simp only [checksOf, State.lanesValid, laneSize_congr h.1, laneAt_congr h.2]
  | unpka => simp only [checksOf, State.laneSizePacks, laneSize_congr h.1]
  | h2s => simp only [checksOf, State.sheetsValid, laneSize_congr h.1, sheetAt_congr h.2]

/-- Two states whose RP[0..L-1] is written with the same rows read the same there. -/
theorem peek_setRows_congr {L : Nat} {f g : Nat → Word} (hfg : ∀ k < L, f k = g k) (s u : State) {z : Fin 64}
    (hz : z.val < L) : peek (setRows L f s) (.rp z) = peek (setRows L g u) (.rp z) := by
  simp only [peek, setRows_rp_getElem, if_pos hz, hfg z.val hz]

theorem peek_setSheets_congr {f g : Nat → Word} (hfg : ∀ x, f x = g x) (s u : State) (x : Fin 5) :
    peek (setSheets f s) (.sp x) = peek (setSheets g u) (.sp x) := by
  simp only [peek, setSheets_sp_getElem, hfg]

/-- What a command writes comes from nothing but its operands (spec/20 R65). -/
theorem peek_performOf_congr {i : Instr} {s u : State} (h : sameOperands i s u) {r : Loc}
    (hw : writes i s.log2l.toNat r = true) : peek (performOf i s) r = peek (performOf i u) r := by
  match i, r, hw with
  | .pars1, .res, _ | .pack1 _, .pk, _ =>
    simp only [performOf, peek, setRes_res, setPk_pk, show s.arg = u.arg from h]
  | .unpk1 _, .res, _ => simp only [performOf, peek, setRes_res, show s.pk = u.pk from h]
  | .parsp, .pk, _ =>
    have hp := sliceAt_congr h.2
    simp only [performOf, peek, setPk_pk, packAll, ← laneSize_congr h.1]
    exact orBelow_congr fun k hk => by rw [State.parityAt, State.parityAt, hp k hk]
  | .packa, .pk, _ =>
    have hp := rowAt_congr h.2
    simp only [performOf, peek, setPk_pk, packAll, ← laneSize_congr h.1]
    exact orBelow_congr fun k hk => by rw [hp k hk]
  | .parl, .sp x, _ =>
    rw [performOf, performOf, laneAt_congr h.2]
    exact peek_setSheets_congr (fun _ => rfl) s u x
  | .s2h, .sp x, _ =>
    have hp := rowAt_congr h.2
    rw [performOf, performOf, ← laneSize_congr h.1]
    exact peek_setSheets_congr (fun _ => orBelow_congr fun k hk => by rw [hp k hk]) s u x
  | .pars, .rp z, hz =>
    have hp := sliceAt_congr h.2
    rw [performOf, performOf, ← laneSize_congr h.1]
    exact peek_setRows_congr (fun k hk => by rw [State.parityAt, State.parityAt, hp k hk]) s u (of_decide_eq_true hz)
  | .unpka, .rp z, hz =>
    rw [performOf, performOf, ← laneSize_congr h.1, show s.pk = u.pk from h.2]
    exact peek_setRows_congr (fun _ _ => rfl) s u (of_decide_eq_true hz)
  | .h2s, .rp z, hz =>
    rw [performOf, performOf, ← laneSize_congr h.1, sheetAt_congr h.2]
    exact peek_setRows_congr (fun _ _ => rfl) s u (of_decide_eq_true hz)

theorem performOf_err (i : Instr) (s : State) : (performOf i s).err = s.err := by
  rw [performOf_frame]

theorem performOf_errcode (i : Instr) (s : State) : (performOf i s).errcode = s.errcode := by
  rw [performOf_frame]

/-! ### While a command is pending -/

/-- Nothing but the error record and the outside world moves from `s` to `t`. -/
def BlockKept (s t : State) : Prop :=
  t = { s with
    err := t.err, errcode := t.errcode, sched := t.sched, host := t.host, reads := t.reads, draws := t.draws }

theorem BlockKept.trans {s t u : State} (h : BlockKept s t) (h' : BlockKept t u) : BlockKept s u := by
  unfold BlockKept at *
  refine h'.trans ?_
  rw [h]

theorem blockKept_recordError (c : ErrCode) (s : State) : BlockKept s (recordError c s) := by
  rw [BlockKept, recordError_eq]

theorem blockKept_clearError (s : State) : BlockKept s (clearError s) := rfl

theorem blockKept_recordRead (v : Word) (s : State) : BlockKept s (recordRead v s) := rfl

theorem blockKept_dropTurn (s : State) : BlockKept s (dropTurn s) := rfl

theorem blockKept_withHost (s : State) (rest : List HostStmt) : BlockKept s { s with host := rest } := rfl

theorem blockKept_memRead (width off : Nat) (s : State) : BlockKept s (memRead width off s).2 := by
  obtain ⟨-, e⟩ | ⟨r, -, ⟨-, -, e⟩ | ⟨-, e⟩⟩ := memRead_cases width off s <;> rw [e]
  · exact blockKept_recordError .access s
  · rfl
  · rfl

/-- A write while a command is pending stores nothing (spec/60 R207). -/
theorem blockKept_memWrite {s : State} (hb : s.busy = true) (width off : Nat) (v : Word) :
    BlockKept s (memWrite width off v s) := by
  obtain ⟨-, e⟩ | ⟨-, -, e⟩ | ⟨-, -, e⟩ | ⟨r, -, -, -, ⟨-, e⟩ | ⟨hidle, -⟩⟩ := memWrite_cases width off v s
  · rw [e]; exact blockKept_recordError .access s
  · rw [e]; exact blockKept_clearError s
  · rw [e]; rfl
  · rw [e]; exact blockKept_recordError .busy s
  · simp [hb] at hidle

theorem blockKept_syncOnce (v : Word) (rest : List HostStmt) (s : State) : BlockKept s (syncOnce v rest s) := by
  unfold syncOnce
  split <;> rfl

/-- A host turn while a command is pending moves nothing of the block but the error record (spec/20 R62). -/
theorem blockKept_hostTurn {s : State} (hb : s.busy = true) : BlockKept s (hostTurn s) := by
  obtain ⟨-, e⟩ | ⟨w, off, rest, -, e⟩ | ⟨w, off, v, rest, -, e⟩ | ⟨rest, -, e⟩ := hostTurn_cases s <;> rw [e]
  · rfl
  · exact ((blockKept_withHost s rest).trans (blockKept_memRead w off _)).trans (blockKept_recordRead _ _)
  · exact (blockKept_withHost s rest).trans (blockKept_memWrite (s := { s with host := rest }) hb w off v)
  · exact blockKept_syncOnce _ rest s

end Sys2Proof.Machine

/-! ### The obligations -/

namespace Sys2Proof.MemoryProofs

open Sys2Proof.Machine Sys2Proof.Spec

/-- Settles O25: the checks agree, so the same one fails first or none does; and what is written comes from operands
alone. -/
theorem commandReadsOnlyItsOperands : Obligations.CommandReadsOnlyItsOperands := by
  intro i s u s' u' hop hs hu hcode hs' hu'
  have hchecks := checksOf_congr hop
  obtain ⟨hp, rfl⟩ | ⟨c, hf, rfl⟩ := exec_cases hs'
  · obtain ⟨-, rfl⟩ | ⟨d, hd, -⟩ := exec_cases hu'
    · refine ⟨by simp [performOf_err, hs, hu], by simp [performOf_errcode, hcode], fun _ r hw => ?_⟩
      have hr := ne_status_of_writes hw
      rw [peek_endCommand hr, peek_endCommand hr, peek_performOf_congr hop hw]
    · rw [← hchecks, hp] at hd
      cases hd
  · obtain ⟨hp, -⟩ | ⟨d, hd, rfl⟩ := exec_cases hu'
    · rw [← hchecks, hf] at hp
      cases hp
    · rw [← hchecks, hf] at hd
      cases hd
      exact ⟨by simp, by simp [hs, hu], fun h => by simp at h⟩

/-- Settles O26: entry by entry, then byte by byte, then the model's own fields. -/
theorem commandChangesOnlyItsDestination : Obligations.CommandChangesOnlyItsDestination := by
  intro i s t h
  refine ⟨fun r hw hr => peek_exec_of_not_writes h hw hr, fun off hout => byteAt_congr fun r hlo hhi => ?_, ?_⟩
  · have hin : ¬ (writes i s.log2l.toNat r = true ∨ r = .status) := fun hc => by
      have := hout r hc
      omega
    push Not at hin
    obtain ⟨hw, hr⟩ := hin
    exact peek_exec_of_not_writes h (by simpa using hw) hr
  · rw [exec_frame h]
    exact ⟨rfl, rfl, rfl, rfl, rfl⟩

/-- Settles O41: an idle write of these is the storing of one word, `acceptWrite`. -/
theorem idleWriteStoresInOneEntry : Obligations.IdleWriteStoresInOneEntry := by
  intro s v r hb h1 h2 h3 h4
  have hr := Loc.stores_of_ne h1 h2 h3 h4
  have hb' := (acceptWrite_busy hr v s).trans hb
  have hother : ∀ r', r' ≠ r → peek (acceptWrite r v s) r' = peek s r' := fun r' hne =>
    peek_acceptWrite_of_ne v s ⟨h2, h3⟩ hne
  rw [memWrite_idle hb hr]
  refine ⟨peek_acceptWrite_self v s hr, ?_, hother, fun off hout => ?_, acceptWrite_frame v s hr, ?_⟩
  · rw [memRead_idle hb', peek_acceptWrite_self v s hr]
  · refine byteAt_congr fun r' hlo hhi => hother r' ?_
    rintro rfl
    omega
  · rw [memWrite_idle hb' hr, acceptWrite_acceptWrite hr]

/-- Settles O43: a read records E_ACCESS, draws a free value, or leaves the state as it is. -/
theorem readsHaveNoSideEffect : Obligations.ReadsHaveNoSideEffect := by
  intro s width off
  obtain ⟨hn, -⟩ | ⟨r, -, ⟨-, -, e⟩ | ⟨-, e⟩⟩ := memRead_cases width off s
  · exact .inr ⟨(reach_eq_none_iff width off).mp hn, by rw [memRead_of_reach_none hn]⟩
  · left
    rw [e]
    rfl
  · left
    rw [e]

/-- Settles O44: `locate` inverts the offsets of the map and is none elsewhere. -/
theorem addressMapIsExact : Obligations.AddressMapIsExact := by
  refine ⟨⟨rfl, rfl, rfl, rfl, rfl, rfl, fun _ => rfl, fun _ => rfl, fun _ => rfl, fun _ => rfl⟩, locate_eq_some_iff,
    locate_eq_none_iff_mapped, fun off v s hm => ?_⟩
  have hn := (reach_eq_none_iff 8 off).mpr (.inr hm)
  exact ⟨memWrite_of_reach_none hn v s, memRead_of_reach_none hn s⟩

/-- Settles O45: the byte is in the window, its word is the one at the aligned offset, and its lane is the rest. -/
theorem windowIsLittleEndian : Obligations.WindowIsLittleEndian := by
  refine ⟨fun s r k hk => ?_, fun s off hoff hm => ?_⟩
  · obtain ⟨-, hlt⟩ := offset_aligned_lt r
    rw [Nat.add_assoc, busByte_add s (by omega), byteAt_offset_add s r hk, byteLane]
  · rw [busByte_add s hoff, byteAt_of_not_mapped s hm]

/-- Settles O49: the engine's turn and reset leave BUSY = 0, and a host turn keeps the block. -/
theorem pendingCommandIsFrozen : Obligations.PendingCommandIsFrozen := by
  intro s t hb hs ht
  obtain ⟨-, he⟩ | ⟨-, rfl⟩ | ⟨-, rfl⟩ | ⟨-, rfl⟩ := step_cases hs
  · rw [engineTurn_not_busy he] at ht
    cases ht
  · exact (blockKept_dropTurn s).trans (blockKept_hostTurn (s := dropTurn s) hb)
  · cases ht
  · cases ht

/-- Settles O53: an idle read is exact, and an engine step leaves the block idle. -/
theorem idleReadsAreExact : Obligations.IdleReadsAreExact := by
  intro s
  refine ⟨fun hb => ?_, fun t ht r => memRead_idle (engineTurn_not_busy ht) r⟩
  have h := memRead_idle hb
  exact ⟨h, h .status, h .cfg, h .cmd, h .arg, h .res, h .pk, fun z => h (.sb z), fun i => h (.lb i),
    fun z => h (.rp z), fun x => h (.sp x)⟩

/-- Settles O37: a write to RES is E_ACCESS, which comes before E_BUSY (spec/60 R210). -/
theorem resIsReadOnly : Obligations.ResIsReadOnly := by
  intro s v
  have h : memWrite 8 0x020 v s = refusedAccess s 7 := memWrite_res v s
  exact ⟨h, by rw [h, refusedAccess]⟩

/-- Settles O46: the window's offset of an address, inside and outside. -/
theorem busReachesWindowOnly : Obligations.BusReachesWindowOnly := by
  refine ⟨Nat.mul_mod_right 4096 _, fun width off h => ?_, fun width off v h => ?_, fun width addr v h => ?_⟩
  · rw [busRead, windowOffset_add h, Option.map_some]
  · rw [busWrite, windowOffset_add h, Option.map_some]
  · rw [busRead, busWrite, windowOffset_outside h]
    exact ⟨rfl, rfl⟩

/-- Settles O47: the turn comes off the schedule, the access off the script, and a read's value before the reads. -/
theorem hostTurnMakesNextAccess : Obligations.HostTurnMakesNextAccess := by
  intro s sch rest hsched
  have hstep : step s = .next (hostTurn { s with sched := sch }) := by
    rw [step, nextTurn, hsched, dropTurn, hsched, List.tail_cons]
  refine ⟨fun width off hh => ?_, fun width off v hh => ?_⟩
  · rw [hstep, hostTurn, hh]
    simp only [performAccess, recordRead, memRead_fst_withScript, memRead_reads]
  · rw [hstep, hostTurn, hh]
    rfl

end Sys2Proof.MemoryProofs
end

section
/-! SUPPORT. Commands and their words: the opcode map row by row, which words decode, and what the engine's turn, a CMD
access and a turn of `sync` do. -/

namespace Sys2Proof

/-! ### A command as its opcode and its slot (spec/30 R70 to R72) -/

theorem Instr.wellFormed_iff (i : Instr) : i.wellFormed = true ↔ i.slot < 64 := by
  cases i <;> simp [Instr.wellFormed, Instr.slot, slotFits]

theorem Instr.slot_of_hasSlot_false {i : Instr} (h : i.hasSlot = false) : i.slot = 0 := by
  cases i with
  | pack1 z | unpk1 z => cases h
  | _ => rfl

/-- PACK1 and UNPK1 have the slot, so the opcode says whether there is one (spec/30 R70). -/
theorem Instr.hasSlot_eq (i : Instr) : i.hasSlot = (i.op == 0x5#4 || i.op == 0x7#4) := by
  cases i <;> rfl

theorem Instr.hasSlot_congr {i j : Instr} (h : i.op = j.op) : i.hasSlot = j.hasSlot := by
  rw [hasSlot_eq, hasSlot_eq, h]

/-- The opcode of a command names it again, with any value its slot operand may take. -/
theorem ofOp_op (i : Instr) {z : Nat} (hz : i.hasSlot = true → z = i.slot) : ofOp i.op z = some i := by
  cases i with
  | pack1 z' | unpk1 z' => rw [hz rfl]; rfl
  | _ => rfl

/-- The opcode of a command names, with any slot field, a command of that opcode. -/
theorem exists_ofOp_op (i : Instr) (z : Nat) : ∃ j, ofOp i.op z = some j ∧ j.op = i.op := by
  cases i <;> exact ⟨_, rfl, rfl⟩

/-- The command an opcode names has that opcode, and the given slot if it has one. -/
theorem op_slot_of_ofOp {op : BitVec 4} {z : Nat} {i : Instr} (h : ofOp op z = some i) :
    i.op = op ∧ (i.hasSlot = true → i.slot = z) := by
  unfold ofOp at h
  split at h <;> cases h <;> rename_i hop <;>
    exact ⟨BitVec.eq_of_toNat_eq hop.symm, fun hs => by cases hs <;> rfl⟩

/-! ### Decoding and encoding -/

theorem decode_encode {i : Instr} (hi : i.wellFormed = true) : decode (encode i) = .ok i := by
  have hz : (BitVec.ofNat 6 i.slot).toNat = i.slot := Nat.mod_eq_of_lt (i.wellFormed_iff.mp hi)
  rw [decode_eq_ok_iff, encode_eq_wordOf, opField_wordOf, rsv0Field_wordOf, rsv1Field_wordOf, slotField_wordOf, hz]
  refine ⟨ofOp_op i fun _ => rfl, rfl, rfl, ?_⟩
  cases hs : i.hasSlot with
  | true => exact .inl rfl
  | false => exact .inr (congrArg (BitVec.ofNat 6) (Instr.slot_of_hasSlot_false hs))

/-- The slot of a decoded command is the field Z, which is 0 where the command has none (spec/30 R74). -/
theorem slot_of_decode {c : Word} {i : Instr} (h : decode c = .ok i) : i.slot = (slotField c).toNat := by
  obtain ⟨hop, -, -, hz⟩ := (decode_eq_ok_iff c i).mp h
  cases hs : i.hasSlot with
  | true => exact (op_slot_of_ofOp hop).2 hs
  | false =>
    rw [Instr.slot_of_hasSlot_false hs, hz.resolve_left (by simp [hs])]
    rfl

theorem wellFormed_of_decode {c : Word} {i : Instr} (h : decode c = .ok i) : i.wellFormed = true := by
  rw [Instr.wellFormed_iff, slot_of_decode h]
  exact (slotField c).isLt

theorem encode_of_decode {c : Word} {i : Instr} (h : decode c = .ok i) : encode i = c := by
  obtain ⟨hop, h0, h1, -⟩ := (decode_eq_ok_iff c i).mp h
  rw [encode_eq_wordOf, slot_of_decode h, BitVec.ofNat_toNat, BitVec.setWidth_eq, (op_slot_of_ofOp hop).1]
  exact wordOf_fields h0 h1

/-! ### The rows of the opcode map (spec/30 R72) -/

/-- Every command's word meets the match and mask of its row. -/
theorem encode_and_mask (i : Instr) : encode i &&& i.mask = i.matchWord := by
  cases i with
  | pars1 => exact Laws.EncodeMatches.pars1
  | parsp => exact Laws.EncodeMatches.parsp
  | pars => exact Laws.EncodeMatches.pars
  | parl => exact Laws.EncodeMatches.parl
  | pack1 z => exact Laws.EncodeMatches.pack1 z
  | packa => exact Laws.EncodeMatches.packa
  | unpk1 z => exact Laws.EncodeMatches.unpk1 z
  | unpka => exact Laws.EncodeMatches.unpka
  | s2h => exact Laws.EncodeMatches.s2h
  | h2s => exact Laws.EncodeMatches.h2s

/-- The row of a command in the opcode map: its match and its mask. -/
def Instr.row (i : Instr) : Word × Word := (i.matchWord, i.mask)

theorem Instr.row_congr {i j : Instr} (h : i.op = j.op) : i.row = j.row := by
  simp only [row, matchWord, mask, hasSlot_congr h, h]

/-- The rows of the opcode map are the commands' rows, and no others. -/
theorem mem_opcodeRows_iff (r : Word × Word) : r ∈ Spec.opcodeRows ↔ ∃ i : Instr, i.row = r := by
  constructor
  · intro h
    simp only [Spec.opcodeRows, List.mem_cons, List.not_mem_nil, or_false] at h
    obtain h | h | h | h | h | h | h | h | h | h := h
    exacts [⟨.pars1, h.symm⟩, ⟨.parsp, h.symm⟩, ⟨.pars, h.symm⟩, ⟨.parl, h.symm⟩, ⟨.pack1 0, h.symm⟩,
      ⟨.packa, h.symm⟩, ⟨.unpk1 0, h.symm⟩, ⟨.unpka, h.symm⟩, ⟨.s2h, h.symm⟩, ⟨.h2s, h.symm⟩]
  · rintro ⟨i, rfl⟩
    cases i <;> simp [Spec.opcodeRows, Instr.row, Instr.matchWord, Instr.mask, Instr.hasSlot, Instr.op]

theorem matchWord_eq_wordOf (i : Instr) : i.matchWord = wordOf i.op 0 := by
  simp [Instr.matchWord, wordOf]

/-- A mask keeps every bit of OP and of the reserved fields, and those of Z where the command has no slot. -/
theorem fields_mask (i : Instr) :
    opField i.mask = BitVec.allOnes 4 ∧ rsv0Field i.mask = BitVec.allOnes 4 ∧
      rsv1Field i.mask = BitVec.allOnes 50 ∧ (i.hasSlot = true ∨ slotField i.mask = BitVec.allOnes 6) := by
  cases hs : i.hasSlot <;> simp only [Instr.mask, hs] <;> decide

theorem opField_and (c d : Word) : opField (c &&& d) = opField c &&& opField d := BitVec.extractLsb'_and
theorem rsv0Field_and (c d : Word) : rsv0Field (c &&& d) = rsv0Field c &&& rsv0Field d := BitVec.extractLsb'_and
theorem rsv1Field_and (c d : Word) : rsv1Field (c &&& d) = rsv1Field c &&& rsv1Field d := BitVec.extractLsb'_and
theorem slotField_and (c d : Word) : slotField (c &&& d) = slotField c &&& slotField d := BitVec.extractLsb'_and

/-- A word that meets the match and mask of a command has the command's OP, no reserved bit, and no slot field where the
command has no slot (spec/30 R73, R74). -/
theorem fields_of_matches {c : Word} {i : Instr} (h : c &&& i.mask = i.matchWord) :
    opField c = i.op ∧ rsv0Field c = 0 ∧ rsv1Field c = 0 ∧ (i.hasSlot = true ∨ slotField c = 0) := by
  obtain ⟨mop, m0, m1, mz⟩ := fields_mask i
  rw [matchWord_eq_wordOf] at h
  refine ⟨?_, ?_, ?_, mz.imp_right fun mz => ?_⟩
  · rw [← BitVec.and_allOnes (x := opField c), ← mop, ← opField_and, h, opField_wordOf]
  · rw [← BitVec.and_allOnes (x := rsv0Field c), ← m0, ← rsv0Field_and, h, rsv0Field_wordOf]
  · rw [← BitVec.and_allOnes (x := rsv1Field c), ← m1, ← rsv1Field_and, h, rsv1Field_wordOf]
  · rw [← BitVec.and_allOnes (x := slotField c), ← mz, ← slotField_and, h, slotField_wordOf]

/-- A word meets the match and mask of a command exactly if it decodes to a command of the same opcode. -/
theorem matches_iff_decode (c : Word) (i : Instr) :
    c &&& i.mask = i.matchWord ↔ ∃ j, decode c = .ok j ∧ j.op = i.op := by
  constructor
  · intro h
    obtain ⟨hop, h0, h1, hz⟩ := fields_of_matches h
    obtain ⟨j, hj, hji⟩ := exists_ofOp_op i (slotField c).toNat
    refine ⟨j, (decode_eq_ok_iff c j).mpr ⟨hop ▸ hj, h0, h1, ?_⟩, hji⟩
    rwa [Instr.hasSlot_congr hji]
  · rintro ⟨j, hd, hji⟩
    obtain ⟨hmatch, hmask⟩ := Prod.mk.inj (Instr.row_congr hji)
    rw [← hmatch, ← hmask, ← encode_of_decode hd]
    exact encode_and_mask j

/-- A row that a decoding word meets is the row of the command it decodes to. -/
theorem eq_row_of_matches {c : Word} {i : Instr} (hd : decode c = .ok i) {r : Word × Word}
    (hr : r ∈ Spec.opcodeRows) (hm : c &&& r.2 = r.1) : r = i.row := by
  obtain ⟨i', rfl⟩ := (mem_opcodeRows_iff r).mp hr
  obtain ⟨j, hj, hop⟩ := (matches_iff_decode c i').mp hm
  obtain rfl : i = j := Except.ok.inj (hd.symm.trans hj)
  exact (Instr.row_congr hop).symm

/-- The words of no row are those that decode to no command (spec/30 R75). -/
theorem no_row_iff (c : Word) : (∀ r ∈ Spec.opcodeRows, c &&& r.2 ≠ r.1) ↔ ∃ e, decode c = .error e := by
  cases hd : decode c with
  | ok i =>
    refine iff_of_false (fun h => ?_) (by simp)
    exact h i.row ((mem_opcodeRows_iff _).mpr ⟨i, rfl⟩) ((matches_iff_decode c i).mpr ⟨i, hd, rfl⟩)
  | error e =>
    refine iff_of_true (fun r hr hm => ?_) ⟨e, rfl⟩
    obtain ⟨i, rfl⟩ := (mem_opcodeRows_iff r).mp hr
    obtain ⟨j, hj, -⟩ := (matches_iff_decode c i).mp hm
    cases hd.symm.trans hj

/-- A table word that decodes is the encoding of its command, with the bits above `nbits` dropped. -/
theorem encode_of_decodeTableWord {nbits w : Nat} {i : Instr} (h : decodeTableWord nbits w = some i) :
    encode i = BitVec.ofNat 64 (w % 2 ^ nbits) := by
  obtain ⟨c, hc, hd⟩ := decodeTableWord_eq_some.mp h
  rw [tableWord] at hc
  split at hc
  · rw [encode_of_decode hd, Option.some.inj hc]
  · cases hc

end Sys2Proof

namespace Sys2Proof.Machine

open Sys2Proof.Spec

/-! ### The engine's turn (spec/30 R79) -/

theorem engineTurn_of_decode {s : State} (hb : s.busy = true) {i : Instr} (hd : decode s.pend = .ok i) :
    engineTurn s = exec i s := by
  rw [engineTurn, if_pos hb, hd]

/-- A pending word of no row raises E_OPCODE and does nothing else (spec/30 R73 to R75). -/
theorem engineTurn_of_no_row {s : State} (hb : s.busy = true) (h : ∀ r ∈ opcodeRows, s.pend &&& r.2 ≠ r.1) :
    engineTurn s = .next (errored s 1) := by
  obtain ⟨e, he⟩ := (no_row_iff s.pend).mp h
  rw [engineTurn, if_pos hb, he]
  exact congrArg Host.Outcome.next (endCommand_recordError .opcode s)

theorem nextTurn_of_engineNext {s : State} (h : engineNext s) : nextTurn s = .engine := by
  obtain ⟨hb, hs | ⟨rest, hs⟩⟩ := h
  · simp [nextTurn, hs, hb]
  · simp [nextTurn, hs]

theorem step_of_engineNext {s : State} (h : engineNext s) : step s = engineTurn (dropTurn s) := by
  rw [step, nextTurn_of_engineNext h]

/-- With the engine next, the step runs the command that PEND decodes to (spec/30 R79). -/
theorem step_of_engineNext_decode {s : State} (h : engineNext s) {i : Instr} (hd : decode s.pend = .ok i) :
    step s = exec i (dropTurn s) := by
  rw [step_of_engineNext h]
  exact engineTurn_of_decode (s := dropTurn s) h.1 hd

theorem step_next (s : State) : ∃ t, step s = .next t := by
  unfold step
  cases nextTurn s with
  | engine => exact engineTurn_next _
  | host | reset | resetHost => exact ⟨_, rfl⟩

/-! ### The CMD register and `sync` -/

/-- An idle CMD write issues its word (spec/30 R78). -/
theorem memWrite_cmd_idle {s : State} (hb : s.busy = false) (v : Word) :
    memWrite 8 Loc.cmd.offset v s = issue v s := by
  rw [memWrite, reach_offset]
  simp [hb, acceptWrite]

theorem memWrite_cmd_busy {s : State} (hb : s.busy = true) (v : Word) :
    memWrite 8 Loc.cmd.offset v s = refusedAccess s 6 := by
  rw [memWrite, reach_offset]
  simp only [hb, if_true]
  exact recordError_eq .busy s

/-- STATUS, CFG and CMD read exactly with no effect, BUSY or not (spec/70 R245). -/
theorem memRead_of_readsExactly {r : Loc} (hr : r.readsExactly = true) (s : State) :
    memRead 8 r.offset s = (peek s r, s) := by
  rw [memRead, reach_offset]
  simp [hr]

theorem step_of_host_sched {s : State} {sch : List Turn} (h : s.sched = .host :: sch) :
    step s = .next (hostTurn { s with sched := sch }) := by
  rw [step, nextTurn, h, dropTurn, h, List.tail_cons]

/-- A turn of `sync` records the STATUS word, and is the last one exactly if BUSY = 0 (spec/30 R77). -/
theorem syncOnce_statusWord (rest : List HostStmt) (s : State) :
    syncOnce (statusWord s) rest s =
      recordRead (statusWord s) { s with host := if s.busy then s.host else rest } := by
  rw [syncOnce, showsBusy_statusWord]
  by_cases hb : s.busy = true
  · rw [if_pos hb, if_pos hb]
  · rw [if_neg hb, if_neg hb]

end Sys2Proof.Machine

/-! ### The obligations -/

namespace Sys2Proof.EncodingProofs

open Sys2Proof.Machine Sys2Proof.Spec

/-- Settles O2: the fields of the word `encode` builds are the command's opcode and slot. -/
theorem decodeOfEncodeIsIdentity : Obligations.DecodeOfEncodeIsIdentity :=
  fun _ => decode_encode

/-- Settles O3: OP and Z are the command's opcode and slot, and every other bit of the word is 0. -/
theorem decodedWordIsItsEncoding : Obligations.DecodedWordIsItsEncoding :=
  fun _ _ h => ⟨encode_of_decode h, wellFormed_of_decode h⟩

/-- Settles O4: a word decodes exactly if it meets a row, the row of the command it decodes to. -/
theorem wordMatchesOneRowOrRaisesOpcode : Obligations.WordMatchesOneRowOrRaisesOpcode := by
  intro s hb
  cases hd : decode s.pend with
  | ok i =>
    have hm : s.pend &&& i.mask = i.matchWord := (matches_iff_decode s.pend i).mpr ⟨i, hd, rfl⟩
    have hr : i.row ∈ opcodeRows := (mem_opcodeRows_iff _).mpr ⟨i, rfl⟩
    exact .inl ⟨⟨i.row, hr, hm, fun _ hr' hm' => eq_row_of_matches hd hr' hm'⟩, i, rfl, hm⟩
  | error e =>
    have hn := (no_row_iff s.pend).mpr ⟨e, hd⟩
    exact .inr ⟨hn, engineTurn_of_no_row hb hn⟩

/-- Settles O1: five closed words, decoded. -/
theorem tableWordsDecode : Obligations.TableWordsDecode := by
  unfold Obligations.TableWordsDecode
  decide

/-- Settles O5: the next turn is the engine's, and taking it off the schedule leaves BUSY and PEND. -/
theorem stepRunsDecodedCommand : Obligations.StepRunsDecodedCommand :=
  fun _ h => ⟨step_of_engineNext h, fun _ hd => step_of_engineNext_decode h hd⟩

/-- Settles O6: the word placed is the encoding of its command, which decodes to it. -/
theorem fetchWordIsTheNextCommandRun : Obligations.FetchWordIsTheNextCommandRun := by
  intro s nbits w i h
  have hw := encode_of_decodeTableWord h
  have hn : engineNext (s.withFetchWord nbits w) := ⟨rfl, .inr ⟨s.sched, rfl⟩⟩
  have hd : decode (s.withFetchWord nbits w).pend = .ok i := by
    obtain ⟨c, -, hc⟩ := decodeTableWord_eq_some.mp h
    rw [State.withFetchWord, ← hw, encode_of_decode hc, hc]
  rw [step_of_engineNext_decode hn hd, hw]
  rfl

/-- Settles O7: the engine's turn answers a next state, and so do the others. -/
theorem everyStepAnswersNext : Obligations.EveryStepAnswersNext := step_next

/-- Settles O36: the accepted write issues, the engine step that follows meets no row, and a CMD read is exact. -/
theorem cmdWriteIssuesOrIsRefused : Obligations.CmdWriteIssuesOrIsRefused := by
  refine fun s v => ⟨fun hb => ?_, fun hb => memWrite_cmd_busy hb v, memRead_of_readsExactly (r := .cmd) rfl s⟩
  have hi : memWrite 8 0x010 v s = issue v s := memWrite_cmd_idle hb v
  refine ⟨hi, fun hn => ?_⟩
  rw [hi, engineTurn_of_no_row (s := issue v s) rfl hn]
  rfl

/-- Settles O48: the turn is the host's, and its statement one turn of the `sync` loop. -/
theorem syncPollsUntilIdle : Obligations.SyncPollsUntilIdle := by
  intro s sch rest hsched hhost
  rw [step_of_host_sched hsched, hostTurn, hhost]
  exact congrArg Host.Outcome.next (syncOnce_statusWord rest { s with sched := sch, host := .sync :: rest })

end Sys2Proof.EncodingProofs
end

section
/-! SUPPORT. Parity extraction: how a failing check ends a command, the parities bit by bit as XORs over y, what PARS and
PARL perform, parity's linearity, and the two routes to SP. -/

namespace Sys2Proof.Machine

open Sys2Proof.Spec

/-! ### Checks that pass and checks that fail -/

theorem firstFailing_of_pass {ok : Bool} (h : ok = true) (c : ErrCode) (rest : List (Bool × ErrCode)) :
    firstFailing ((ok, c) :: rest) = firstFailing rest := by
  rw [h, firstFailing_cons_pass]

theorem firstFailing_of_fail {ok : Bool} (h : ok = false) (c : ErrCode) (rest : List (Bool × ErrCode)) :
    firstFailing ((ok, c) :: rest) = some c := by
  rw [h, firstFailing_cons_fail]

/-- A command with a failing check answers the state of spec/60 R200: the first one's error, and nothing else. -/
theorem exec_errored {i : Instr} {s : State} {c : ErrCode} (h : firstFailing (checksOf i s) = some c) :
    exec i s = .next (errored s c.code) := by
  rw [exec_fail h, endCommand_recordError, errored]

theorem validSlice_eq_false {v : Word} (h : 2 ^ 25 ≤ v.toNat) : validSlice v = false :=
  decide_eq_false (Nat.not_lt.mpr h)

theorem laneSizePacks_eq_false {s : State} (h : 8 < s.laneSize) : s.laneSizePacks = false :=
  decide_eq_false (Nat.not_le.mpr h)

theorem slicesValid_eq_false {s : State} (h : ∃ z : Fin 64, z.val < s.laneSize ∧ 2 ^ 25 ≤ s.sb[z].toNat) :
    s.slicesValid = false := by
  obtain ⟨z, hz, hsb⟩ := h
  rw [← Bool.not_eq_true, slicesValid_iff]
  exact fun hv => Nat.not_lt.mpr hsb (hv z hz)

theorem lanesValid_eq_false {s : State} (h : ∃ i : Fin 25, s.laneSize ≠ 64 ∧ 2 ^ s.laneSize ≤ s.lb[i].toNat) :
    s.lanesValid = false := by
  obtain ⟨i, hL, hlb⟩ := h
  rw [← Bool.not_eq_true, lanesValid_iff]
  exact fun hv => (hv i).elim hL (Nat.not_lt.mpr hlb)

/-! ### Parities bit by bit, as the XOR over y (spec/40 R100, R104) -/

theorem xor5_congr {f g : Nat → Bool} (h : ∀ y < 5, f y = g y) : xor5 f = xor5 g := by
  simp only [xor5, h 0 (by decide), h 1 (by decide), h 2 (by decide), h 3 (by decide), h 4 (by decide)]

/-- Zero extension of a RowValue keeps every bit. -/
theorem rowValue_setWidth_getLsbD (v : RowValue) (x : Nat) : (v.setWidth 64).getLsbD x = v.getLsbD x := by
  rw [BitVec.getLsbD_setWidth]
  by_cases hx : x < 64
  · simp [hx]
  · simp [hx, BitVec.getLsbD_of_ge v x (by omega)]

/-- The parity of a word's low 25 bits: its bits at 5y + x lie among them. -/
theorem sliceParity_setWidth_getLsbD (w : Word) {x : Nat} (hx : x < 5) :
    (sliceParity (w.setWidth 25)).getLsbD x = xor5 fun y => w.getLsbD (5 * y + x) := by
  have hbit : ∀ y < 5, (w.setWidth 25).getLsbD (5 * y + x) = w.getLsbD (5 * y + x) := fun y hy => by
    simp [show 5 * y + x < 25 by omega]
  rw [← xor5_congr hbit, sliceParity_getLsbD _ _ hx, xor5, Nat.mul_zero, Nat.zero_add]

theorem parityAt_getLsbD (s : State) (z : Fin 64) {x : Nat} (hx : x < 5) :
    (s.parityAt z.val).getLsbD x = xor5 fun y => s.sb[z].getLsbD (5 * y + x) := by
  rw [State.parityAt, sliceAt_eq, sliceParity_setWidth_getLsbD _ hx]

theorem laneParity_getLsbD_xor5 (lane : Nat → Word) (x z : Nat) :
    (laneParity lane x).getLsbD z = xor5 fun y => (lane (x + 5 * y)).getLsbD z :=
  laneParity_getLsbD lane x z

/-! ### What the commands perform when their checks pass -/

/-- Once L is at most 8, what is left to PARSP is the check of PARS (spec/30 R80). -/
theorem firstFailing_parsp_of_le {s : State} (h : s.laneSize ≤ 8) :
    firstFailing (checksOf .parsp s) = firstFailing [(s.slicesValid, .value)] :=
  firstFailing_of_pass (decide_eq_true h) .lsize _

theorem exec_pars_of_slicesValid {s : State} (h : s.slicesValid = true) :
    exec .pars s = .next (endCommand (setRows s.laneSize (fun z => (s.parityAt z).setWidth 64) s)) :=
  exec_pass (i := .pars) (firstFailing_of_pass h _ _)

theorem exec_parl_of_lanesValid {s : State} (h : s.lanesValid = true) :
    exec .parl s = .next (endCommand (setSheets (laneParity s.laneAt) s)) :=
  exec_pass (i := .parl) (firstFailing_of_pass h _ _)

theorem exec_s2h_of_rowsValid {s : State} (h : s.rowsValid = true) :
    exec .s2h s = .next (endCommand (setSheets (sheetOfRows s.laneSize s.rowAt) s)) :=
  exec_pass (i := .s2h) (firstFailing_of_pass h _ _)

/-! ### Linearity (spec/40 R106) -/

theorem sliceRow_xor (a b : SliceValue) (y : Nat) : sliceRow (a ^^^ b) y = sliceRow a y ^^^ sliceRow b y :=
  BitVec.extractLsb'_xor

theorem sliceParity_xor (a b : SliceValue) : sliceParity (a ^^^ b) = sliceParity a ^^^ sliceParity b := by
  simp only [sliceParity, sliceRow_xor]
  ac_rfl

theorem laneParity_xor (a b : Nat → Word) (x : Nat) :
    laneParity (fun i => a i ^^^ b i) x = laneParity a x ^^^ laneParity b x := by
  simp only [laneParity]
  ac_rfl

theorem laneParity_zero (x : Nat) : laneParity (fun _ => 0) x = 0 := by
  simp [laneParity]

theorem or_eq_xor_of_and_eq_zero {w : Nat} {a b : BitVec w} (h : a &&& b = 0) : a ||| b = a ^^^ b := by
  refine BitVec.eq_of_getLsbD_eq fun i _ => ?_
  have hi : (a.getLsbD i && b.getLsbD i) = false := by simp [← BitVec.getLsbD_and, h]
  rw [BitVec.getLsbD_or, BitVec.getLsbD_xor]
  cases ha : a.getLsbD i with
  | false => simp
  | true => simpa [ha] using hi

/-- What is bit-disjoint from every part is bit-disjoint from their OR. -/
theorem and_foldr_or_eq_zero {α : Type} {w : Nat} {a : BitVec w} {g : α → BitVec w} :
    ∀ {ps : List α}, (∀ p ∈ ps, a &&& g p = 0) → a &&& ps.foldr (fun p acc => g p ||| acc) 0 = 0
  | [], _ => BitVec.and_zero
  | p :: ps, h => by
    have hp := h p List.mem_cons_self
    have hps := and_foldr_or_eq_zero fun q hq => h q (List.mem_cons_of_mem p hq)
    rw [List.foldr_cons, BitVec.and_or_distrib_left, hp, hps, BitVec.or_self]

/-- A part that is bit-disjoint from the others joins their OR as it joins an XOR. -/
theorem or_foldr_eq_xor {α : Type} {w : Nat} {a : BitVec w} {g : α → BitVec w} {ps : List α}
    (h : ∀ p ∈ ps, a &&& g p = 0) :
    a ||| ps.foldr (fun p acc => g p ||| acc) 0 = a ^^^ ps.foldr (fun p acc => g p ||| acc) 0 :=
  or_eq_xor_of_and_eq_zero (and_foldr_or_eq_zero h)

theorem sliceParity_foldr_or {parts : List SliceValue} (h : parts.Pairwise fun a b => a &&& b = 0) :
    sliceParity (parts.foldr (· ||| ·) 0) = parts.foldr (fun p acc => sliceParity p ^^^ acc) 0 := by
  induction h with
  | nil => decide
  | @cons p ps hp _ ih =>
    have hor := or_foldr_eq_xor (g := fun q => q) hp
    rw [List.foldr_cons, List.foldr_cons, hor, sliceParity_xor, ih]

theorem laneParity_foldr_or {parts : List (Nat → Word)} (h : parts.Pairwise fun a b => ∀ i, a i &&& b i = 0)
    (x : Nat) :
    laneParity (fun i => parts.foldr (fun p acc => p i ||| acc) 0) x =
      parts.foldr (fun p acc => laneParity p x ^^^ acc) 0 := by
  induction h with
  | nil => exact laneParity_zero x
  | @cons p ps hp _ ih =>
    have hor i := or_foldr_eq_xor (g := fun q : Nat → Word => q i) fun q hq => hp q hq i
    simp only [List.foldr_cons, hor]
    rw [laneParity_xor, ih]

/-! ### The two routes to SP (spec/40 R107) -/

/-- SB[0..L-1] and LB hold the same state (spec/10 R25, R26). -/
def SameStateInBothLayouts (s : State) : Prop :=
  ∀ (x y : Fin 5) (z : Fin 64), z.val < s.laneSize →
    s.sb[z].getLsbD (5 * y.val + x.val) = (s.laneAt (x.val + 5 * y.val)).getLsbD z.val

/-- Bit x of a slice's parity is bit z of the lanes' parity at x. -/
theorem parityAt_getLsbD_eq_laneParity {s : State} (h : SameStateInBothLayouts s) {z : Fin 64}
    (hz : z.val < s.laneSize) {x : Nat} (hx : x < 5) :
    (s.parityAt z.val).getLsbD x = (laneParity s.laneAt x).getLsbD z.val := by
  rw [parityAt_getLsbD s z hx, laneParity_getLsbD_xor5]
  exact xor5_congr fun y hy => h ⟨x, hx⟩ ⟨y, hy⟩ z hz

/-- The sheets of the slices' parities are the lanes' parities: below L bit by bit, and from L on both are 0. -/
theorem sheetOfRows_eq_laneParity {s : State} (h : SameStateInBothLayouts s) (hv : s.lanesValid = true)
    {r : Nat → Word} (hr : ∀ z : Fin 64, z.val < s.laneSize → r z.val = (s.parityAt z.val).setWidth 64)
    {x : Nat} (hx : x < 5) : sheetOfRows s.laneSize r x = laneParity s.laneAt x := by
  refine BitVec.eq_of_getLsbD_eq fun z hz64 => ?_
  rw [sheetOfRows_getLsbD]
  by_cases hz : z < s.laneSize
  · rw [hr ⟨z, hz64⟩ hz, rowValue_setWidth_getLsbD, parityAt_getLsbD_eq_laneParity h (z := ⟨z, hz64⟩) hz hx]
    simp [hz64, hz]
  · rw [laneParity_getLsbD_of_lanesValid hv hx (Nat.not_lt.mp hz)]
    simp [hz]

theorem setSheets_sp_congr {f g : Nat → Word} (h : ∀ x < 5, f x = g x) (s u : State) :
    (setSheets f u).sp = (setSheets g s).sp := by
  rw [setSheets_sp, setSheets_sp]
  exact congrArg Vector.ofFn (funext fun x => h x.val x.isLt)

end Sys2Proof.Machine

/-! ### The obligations -/

namespace Sys2Proof.ExtractionProofs

open Sys2Proof.Machine Sys2Proof.Spec

/-- Settles O10: the one check is ARG's, and the result is a RowValue, P(ARG[24:0]) bit by bit. -/
theorem pars1WritesParityOfArg : Obligations.Pars1WritesParityOfArg := by
  refine ⟨by decide, fun s => ⟨fun h => ?_, fun h => ?_⟩⟩
  · exact exec_errored (i := .pars1) (firstFailing_of_fail (validSlice_eq_false h) .value [])
  · have hpass := (validSlice_iff s.arg).mpr h
    refine ⟨_, exec_pass (i := .pars1) (firstFailing_of_pass hpass .value []), rfl, rowValue_setWidth_lt _,
      fun x hx => ?_⟩
    exact (rowValue_setWidth_getLsbD _ x).trans (sliceParity_setWidth_getLsbD s.arg hx)

/-- Settles O11: E_LSIZE is checked before E_VALUE; slot z of the packed word is the parity of SB[z]. -/
theorem parspPacksParitiesOfSlices : Obligations.ParspPacksParitiesOfSlices := by
  refine ⟨by decide, fun s => ⟨fun hL => ?_, fun hL h => ?_, fun hL h => ?_⟩⟩
  · exact exec_errored (i := .parsp) (firstFailing_of_fail (laneSizePacks_eq_false hL) .lsize _)
  · have hfail := firstFailing_of_fail (slicesValid_eq_false h) .value []
    exact exec_errored ((firstFailing_parsp_of_le hL).trans hfail)
  · have hpass := firstFailing_of_pass ((slicesValid_iff s).mpr h) .value []
    refine ⟨_, exec_pass ((firstFailing_parsp_of_le hL).trans hpass), rfl, fun z hz x hx => ?_,
      packAll_getLsbD_of_ge _ _⟩
    have hslot : (packAll s.laneSize s.parityAt).getLsbD (5 * z.val + x) = (s.parityAt z.val).getLsbD x := by
      rw [packAll_getLsbD _ _ _ _ (by omega) hx, decide_eq_true hz, Bool.true_and]
    exact hslot.trans (parityAt_getLsbD s z hx)

/-- Settles O12: RP[z] below L is the zero-extended parity of SB[z], and `setRows` keeps the rest. -/
theorem parsWritesParitiesOfSlices : Obligations.ParsWritesParitiesOfSlices := by
  refine ⟨by decide, fun s => ⟨fun h => ?_, fun h => ?_⟩⟩
  · exact exec_errored (i := .pars) (firstFailing_of_fail (slicesValid_eq_false h) .value [])
  · refine ⟨_, exec_pars_of_slicesValid ((slicesValid_iff s).mpr h), endCommand_setRows _ _ s, fun z hz => ?_,
      fun z hz => ?_⟩
    · rw [endCommand_setRows_rp, if_pos hz]
      exact ⟨rowValue_setWidth_lt _, fun x hx => (rowValue_setWidth_getLsbD _ x).trans (parityAt_getLsbD s z hx)⟩
    · rw [endCommand_setRows_rp, if_neg (Nat.not_lt.mpr hz)]

/-- Settles O13: SP[x] is Q(LB)[x], and valid lanes have no parity at L or above. -/
theorem parlWritesParitiesOfLanes : Obligations.ParlWritesParitiesOfLanes := by
  refine ⟨by decide, fun s => ⟨fun h => ?_, fun h => ?_⟩⟩
  · exact exec_errored (i := .parl) (firstFailing_of_fail (lanesValid_eq_false h) .value [])
  · have hv := (lanesValid_iff s).mpr h
    refine ⟨_, exec_parl_of_lanesValid hv, endCommand_setSheets _ s, fun x z => ?_, fun x z hz => ?_⟩
    · rw [endCommand_setSheets_sp, laneParity_getLsbD_xor5]
    · rw [endCommand_setSheets_sp, laneParity_getLsbD_of_lanesValid hv x.isLt hz]

/-- Settles O20: P and Q send 0 to 0 and XOR to XOR, and the OR of bit-disjoint parts is their XOR. -/
theorem parityIsLinear : Obligations.ParityIsLinear :=
  ⟨by decide, sliceParity_xor, fun _ => sliceParity_foldr_or, laneParity_zero, laneParity_xor,
    fun _ x h => laneParity_foldr_or h x⟩

/-- Settles O21: PARS leaves RowValues, so S2H runs, and its sheets of their bits are the lanes' parities. -/
theorem bothExtractionRoutesAgree : Obligations.BothExtractionRoutesAgree := by
  intro s _ hsb hlb hsame
  have hlanes := (lanesValid_iff s).mpr hlb
  refine ⟨_, _, exec_pars_of_slicesValid ((slicesValid_iff s).mpr hsb), exec_parl_of_lanesValid hlanes,
    by rw [endCommand_err, setRows_err], rfl, fun u hrp hlog => ?_⟩
  have hL : u.laneSize = s.laneSize := laneSize_congr (by rw [hlog, endCommand_log2l, setRows_log2l])
  have hrow : ∀ z : Fin 64, z.val < s.laneSize → u.rp[z] = (s.parityAt z.val).setWidth 64 := fun z hz => by
    rw [hrp, endCommand_setRows_rp, if_pos hz]
  have hrows : u.rowsValid = true := (rowsValid_iff u).mpr fun z hz => by
    rw [hrow z (hL ▸ hz)]
    exact rowValue_setWidth_lt _
  refine ⟨_, exec_s2h_of_rowsValid hrows, rfl, ?_⟩
  rw [endCommand_sp, endCommand_sp, hL]
  exact setSheets_sp_congr
    (fun x hx => sheetOfRows_eq_laneParity hsame hlanes (fun z hz => (rowAt_eq u z).trans (hrow z hz)) hx) s u

end Sys2Proof.ExtractionProofs
end

section
/-! SUPPORT. Pack and unpack: the words of the commands with a slot, the checks of the family, PK slot by slot, what each
command performs, and unpacking what was packed. -/

namespace Sys2Proof

/-- The word of an opcode and a slot as a number (spec/30 R72). -/
theorem wordOf_ofNat (op : BitVec 4) {z : Nat} (hz : z < 64) :
    wordOf op (BitVec.ofNat 6 z) = BitVec.ofNat 64 (op.toNat + 256 * z) := by
  have hop : op.toNat < 2 ^ 8 := Nat.lt_trans op.isLt (by decide)
  have hor : op.toNat ||| z * 2 ^ 8 = op.toNat + 256 * z := by
    rw [Nat.or_comm, Nat.mul_comm, ← Nat.two_pow_add_eq_or_of_lt hop, Nat.add_comm]
  refine BitVec.eq_of_toNat_eq ?_
  simp (disch := omega) only [wordOf, BitVec.toNat_or, BitVec.toNat_shiftLeft, BitVec.toNat_setWidth,
    BitVec.toNat_ofNat, Nat.shiftLeft_eq, Nat.mod_eq_of_lt, hor]

/-- The word of a command as a number decodes to it: "PACK1 with slot z is 0x5 | (z << 8)" (spec/30 R72). -/
theorem decode_ofNat {i : Instr} (h : i.slot < 64) :
    decode (BitVec.ofNat 64 (i.op.toNat + 256 * i.slot)) = .ok i := by
  rw [← wordOf_ofNat i.op h, ← encode_eq_wordOf, decode_encode (i.wellFormed_iff.mpr h)]

end Sys2Proof

namespace Sys2Proof.Machine

open Sys2Proof.Spec

/-! ### The checks of the family -/

theorem slotInRange_eq_false {z : Nat} (h : 8 ≤ z) : slotInRange z = false :=
  decide_eq_false (Nat.not_lt.mpr h)

theorem validRow_eq_false {v : Word} (h : 32 ≤ v.toNat) : validRow v = false :=
  decide_eq_false (Nat.not_lt.mpr h)

theorem rowsValid_eq_false {s : State} (h : ∃ z : Fin 64, z.val < s.laneSize ∧ 32 ≤ s.rp[z].toNat) :
    s.rowsValid = false := by
  obtain ⟨z, hz, hrp⟩ := h
  rw [← Bool.not_eq_true, rowsValid_iff]
  exact fun hv => Nat.not_lt.mpr hrp (hv z hz)

/-- Once z is below 8, what is left to PACK1 is the check of ARG (spec/41 R131). -/
theorem firstFailing_pack1_of_lt {z : Nat} (hz : z < 8) (s : State) :
    firstFailing (checksOf (.pack1 z) s) = firstFailing [(validRow s.arg, .value)] :=
  firstFailing_of_pass (decide_eq_true hz) .slot _

/-- Once L is at most 8, what is left to PACKA is the check of the rows (spec/41 R133). -/
theorem firstFailing_packa_of_le {s : State} (hL : s.laneSize ≤ 8) :
    firstFailing (checksOf .packa s) = firstFailing [(s.rowsValid, .value)] :=
  firstFailing_of_pass (decide_eq_true hL) .lsize _

/-! ### What the commands perform when their checks pass, and UNPK1's error -/

theorem exec_pack1_of_lt {z : Nat} (hz : z < 8) {s : State} (harg : s.arg.toNat < 32) :
    exec (.pack1 z) s = .next (endCommand (setPk (pack (s.arg.setWidth 5) z) s)) :=
  exec_pass ((firstFailing_pack1_of_lt hz s).trans (firstFailing_of_pass ((validRow_iff s.arg).mpr harg) _ _))

theorem exec_packa_of_rows_lt {s : State} (hL : s.laneSize ≤ 8)
    (hrp : ∀ z : Fin 64, z.val < s.laneSize → s.rp[z].toNat < 32) :
    exec .packa s = .next (endCommand (setPk (packAll s.laneSize fun z => (s.rowAt z).setWidth 5) s)) :=
  exec_pass ((firstFailing_packa_of_le hL).trans (firstFailing_of_pass ((rowsValid_iff s).mpr hrp) _ _))

theorem exec_parsp_of_slices_lt {s : State} (hL : s.laneSize ≤ 8)
    (hsb : ∀ z : Fin 64, z.val < s.laneSize → s.sb[z].toNat < 2 ^ 25) :
    exec .parsp s = .next (endCommand (setPk (packAll s.laneSize s.parityAt) s)) :=
  exec_pass ((firstFailing_parsp_of_le hL).trans (firstFailing_of_pass ((slicesValid_iff s).mpr hsb) _ _))

theorem exec_unpk1_of_lt {z : Nat} (hz : z < 8) (s : State) :
    exec (.unpk1 z) s = .next (endCommand (setRes (unpack s.pk z) s)) :=
  exec_pass (i := .unpk1 z) (firstFailing_of_pass (decide_eq_true hz) _ _)

theorem exec_unpk1_of_ge {z : Nat} (hz : 8 ≤ z) (s : State) : exec (.unpk1 z) s = .next (errored s 3) :=
  exec_errored (i := .unpk1 z) (firstFailing_of_fail (slotInRange_eq_false hz) .slot [])

theorem exec_unpka_of_le {s : State} (hL : s.laneSize ≤ 8) :
    exec .unpka s = .next (endCommand (setRows s.laneSize (unpack s.pk) s)) :=
  exec_pass (i := .unpka) (firstFailing_of_pass (decide_eq_true hL) _ _)

/-! ### RowValues in words -/

theorem setWidth_five_getLsbD (v : Word) {x : Nat} (hx : x < 5) : (v.setWidth 5).getLsbD x = v.getLsbD x := by
  simp [hx]

/-- A valid row is its low five bits, zero-extended. -/
theorem setWidth_setWidth_of_lt {v : Word} (h : v.toNat < 32) : (v.setWidth 5).setWidth 64 = v :=
  BitVec.setWidth_setWidth_eq_self h

/-! ### Packing and unpacking slot by slot -/

/-- PK / 2^(5z) mod 32 (spec/41 R134). -/
theorem unpack_toNat (w : Word) (z : Nat) : (unpack w z).toNat = w.toNat / 2 ^ (5 * z) % 32 := by
  rw [unpack, BitVec.toNat_and, BitVec.toNat_ushiftRight, Nat.shiftRight_eq_div_pow]
  exact Nat.and_two_pow_sub_one_eq_mod _ 5

/-- An unpacked slot is the RowValue whose bits the slot has. -/
theorem unpack_eq_of_slot {w : Word} {z : Nat} {v : RowValue}
    (h : ∀ x < 5, w.getLsbD (5 * z + x) = v.getLsbD x) : unpack w z = v.setWidth 64 := by
  refine BitVec.eq_of_getLsbD_eq fun x _ => ?_
  rw [unpack_getLsbD, rowValue_setWidth_getLsbD]
  by_cases hx : x < 5
  · simp [hx, h x hx]
  · simp [hx, BitVec.getLsbD_of_ge v x (Nat.not_lt.mp hx)]

theorem pack_getLsbD_slot (v : RowValue) {z x : Nat} (hz : z < 8) (hx : x < 5) :
    (pack v z).getLsbD (5 * z + x) = v.getLsbD x := by
  rw [pack_getLsbD, Nat.add_sub_cancel_left]
  simp [show 5 * z + x < 64 by omega]

/-- Packing one slot leaves 0 outside it (spec/41 R130). -/
theorem pack_getLsbD_outside (v : RowValue) {z k : Nat} (hk : k < 5 * z ∨ 5 * z + 5 ≤ k) :
    (pack v z).getLsbD k = false := by
  rw [← Bool.not_eq_true]
  intro h
  have := pack_getLsbD_true h
  omega

theorem packAll_getLsbD_slot {n : Nat} (hn : n ≤ 8) (v : Nat → RowValue) {z x : Nat} (hz : z < n) (hx : x < 5) :
    (packAll n v).getLsbD (5 * z + x) = (v z).getLsbD x := by
  rw [packAll_getLsbD _ _ _ _ (by omega) hx, decide_eq_true hz, Bool.true_and]

/-- The slot that was packed unpacks to its row (spec/41 R138). -/
theorem unpack_pack_self (v : RowValue) {z : Nat} (hz : z < 8) : unpack (pack v z) z = v.setWidth 64 :=
  unpack_eq_of_slot fun _ hx => pack_getLsbD_slot v hz hx

/-- Any other slot unpacks to 0 (spec/41 R138). -/
theorem unpack_pack_of_ne (v : RowValue) {z z' : Nat} (h : z' ≠ z) : unpack (pack v z) z' = 0 :=
  unpack_eq_of_slot (v := 0) fun x hx =>
    (pack_getLsbD_outside v (by omega)).trans BitVec.getLsbD_zero.symm

/-- Every slot packed unpacks to its row (spec/41 R137). -/
theorem unpack_packAll {n : Nat} (hn : n ≤ 8) (v : Nat → RowValue) {z : Nat} (hz : z < n) :
    unpack (packAll n v) z = (v z).setWidth 64 :=
  unpack_eq_of_slot fun _ hx => packAll_getLsbD_slot hn v hz hx

/-- Writing to RP[0..L-1] what stands there changes nothing. -/
theorem setRows_rp_of_same {L : Nat} {f : Nat → Word} {s : State}
    (h : ∀ z : Fin 64, z.val < L → f z.val = s.rp[z]) : (setRows L f s).rp = s.rp := by
  refine Vector.ext fun k hk => ?_
  refine (setRows_rp_getElem L f s ⟨k, hk⟩).trans ?_
  split
  case isTrue hL => exact h ⟨k, hk⟩ hL
  case isFalse => rfl

end Sys2Proof.Machine

/-! ### The obligations -/

namespace Sys2Proof.PackUnpackProofs

open Sys2Proof.Machine Sys2Proof.Spec

/-- Settles O14: E_SLOT is checked before E_VALUE, and PK becomes `pack` of ARG[4:0], bit by bit. -/
theorem pack1WritesOneSlot : Obligations.Pack1WritesOneSlot := by
  refine ⟨fun z => decode_ofNat (i := .pack1 z), fun z s => ⟨fun hz => ?_, fun hz harg => ?_, fun hz harg => ?_⟩⟩
  · exact exec_errored (i := .pack1 z) (firstFailing_of_fail (slotInRange_eq_false hz) .slot _)
  · have hfail := firstFailing_of_fail (validRow_eq_false harg) .value []
    exact exec_errored ((firstFailing_pack1_of_lt hz s).trans hfail)
  · refine ⟨_, exec_pack1_of_lt hz harg, rfl, fun x hx => ?_, fun k hk => pack_getLsbD_outside _ hk⟩
    exact (pack_getLsbD_slot _ hz hx).trans (setWidth_five_getLsbD s.arg hx)

/-- Settles O15: E_LSIZE is checked before E_VALUE, and slot z of the packed word is RP[z][4:0]. -/
theorem packaPacksRows : Obligations.PackaPacksRows := by
  refine ⟨by decide, fun s => ⟨fun hL => ?_, fun hL h => ?_, fun hL h => ?_⟩⟩
  · exact exec_errored (i := .packa) (firstFailing_of_fail (laneSizePacks_eq_false hL) .lsize _)
  · have hfail := firstFailing_of_fail (rowsValid_eq_false h) .value []
    exact exec_errored ((firstFailing_packa_of_le hL).trans hfail)
  · refine ⟨_, exec_packa_of_rows_lt hL h, rfl, fun z hz x hx => ?_, packAll_getLsbD_of_ge _ _⟩
    rw [endCommand_pk, setPk_pk, packAll_getLsbD_slot hL _ hz hx, rowAt_eq, setWidth_five_getLsbD _ hx]

/-- Settles O16: the one check is the slot's, and RES becomes `unpack` of PK as a number. -/
theorem unpk1ReadsOneSlot : Obligations.Unpk1ReadsOneSlot := by
  refine ⟨fun z => decode_ofNat (i := .unpk1 z), fun z s => ⟨fun hz => exec_unpk1_of_ge hz s, fun hz => ?_⟩⟩
  exact ⟨_, exec_unpk1_of_lt hz s, rfl, unpack_toNat s.pk z⟩

/-- Settles O17: the one check is L's; RP[z] below L becomes slot z of PK, and `setRows` keeps the rest. -/
theorem unpkaReadsSlots : Obligations.UnpkaReadsSlots := by
  refine ⟨by decide, fun s => ⟨fun hL => ?_, fun hL => ?_⟩⟩
  · exact exec_errored (i := .unpka) (firstFailing_of_fail (laneSizePacks_eq_false hL) .lsize _)
  · refine ⟨_, exec_unpka_of_le hL, endCommand_setRows _ _ s, fun z hz => ?_, fun z hz => ?_⟩
    · rw [endCommand_setRows_rp, if_pos hz, unpack_toNat]
    · rw [endCommand_setRows_rp, if_neg (Nat.not_lt.mpr hz)]

/-- Settles O22: each slot below L unpacks to the row packed there, a valid RP[z] or the parity of SB[z]. -/
theorem unpackOfPackIsIdentity : Obligations.UnpackOfPackIsIdentity := by
  refine fun s hL => ⟨fun h => ?_, fun h => ?_⟩
  · refine ⟨_, exec_packa_of_rows_lt hL h, fun u hrp hpk hlog => ?_⟩
    have hLu : u.laneSize = s.laneSize := laneSize_congr hlog
    refine ⟨_, exec_unpka_of_le (hLu ▸ hL), ?_⟩
    have hsame : ∀ z : Fin 64, z.val < u.laneSize → unpack u.pk z.val = u.rp[z] := fun z hz => by
      rw [hLu] at hz
      rw [hpk, hrp, endCommand_pk, setPk_pk, unpack_packAll hL _ hz, rowAt_eq, setWidth_setWidth_of_lt (h z hz)]
      rfl
    rw [endCommand_rp, setRows_rp_of_same hsame, hrp]
    rfl
  · refine ⟨_, exec_parsp_of_slices_lt hL h, fun u hpk hlog => ?_⟩
    have hLu : u.laneSize = s.laneSize := laneSize_congr hlog
    refine ⟨_, exec_unpka_of_le (hLu ▸ hL), fun z hz => ?_⟩
    rw [endCommand_setRows_rp, hLu, if_pos hz, hpk, endCommand_pk, setPk_pk, unpack_packAll hL _ hz]
    exact ⟨rowValue_setWidth_lt _, fun x hx => (rowValue_setWidth_getLsbD _ x).trans (parityAt_getLsbD s z hx)⟩

/-- Settles O23: the slot PACK1 wrote unpacks to ARG, any other below 8 to 0, and from 8 on UNPK1 fails. -/
theorem unpackOfOneSlotPacked : Obligations.UnpackOfOneSlotPacked := by
  refine fun s z z' hz harg => ⟨_, exec_pack1_of_lt hz harg, fun u hpk => ⟨fun hz' => ?_, fun hz' => ?_⟩⟩
  · refine ⟨_, exec_unpk1_of_lt hz' u, ?_⟩
    rw [endCommand_res, setRes_res, hpk, endCommand_pk, setPk_pk]
    split
    case isTrue heq => rw [heq, unpack_pack_self _ hz, setWidth_setWidth_of_lt harg]
    case isFalse hne => exact unpack_pack_of_ne _ hne
  · exact exec_unpk1_of_ge hz' u

end Sys2Proof.PackUnpackProofs
end

section
/-! SUPPORT. Axis conversion: the checks and results of S2H and H2S, the conversions bit by bit, and that they undo
each other. -/

namespace Sys2Proof.Machine

/-! ### What the commands perform when their checks pass, and H2S's check when it fails -/

theorem sheetsValid_eq_false {s : State} (h : ∃ x : Fin 5, s.laneSize ≠ 64 ∧ 2 ^ s.laneSize ≤ s.sp[x].toNat) :
    s.sheetsValid = false := by
  obtain ⟨x, hL, hsp⟩ := h
  rw [← Bool.not_eq_true, sheetsValid_iff]
  exact fun hv => (hv x).elim hL (Nat.not_lt.mpr hsp)

theorem exec_s2h_of_rows_lt {s : State} (h : ∀ z : Fin 64, z.val < s.laneSize → s.rp[z].toNat < 32) :
    exec .s2h s = .next (endCommand (setSheets (sheetOfRows s.laneSize s.rowAt) s)) :=
  exec_s2h_of_rowsValid ((rowsValid_iff s).mpr h)

theorem exec_h2s_of_sheetsValid {s : State} (h : s.sheetsValid = true) :
    exec .h2s s = .next (endCommand (setRows s.laneSize (rowOfSheets s.sheetAt) s)) :=
  exec_pass (i := .h2s) (firstFailing_of_pass h _ _)

/-- Writing to SP what stands there changes nothing. -/
theorem setSheets_sp_of_same {f : Nat → Word} {s : State} (h : ∀ x : Fin 5, f x.val = s.sp[x]) :
    (setSheets f s).sp = s.sp := by
  refine Vector.ext fun k hk => ?_
  exact (setSheets_sp_getElem f s ⟨k, hk⟩).trans (h ⟨k, hk⟩)

/-! ### The conversions bit by bit (spec/42 R160, R162) -/

theorem sheetOfRows_getLsbD_of_lt {L : Nat} (r : Nat → Word) (x : Nat) {z : Nat} (hz64 : z < 64) (hz : z < L) :
    (sheetOfRows L r x).getLsbD z = (r z).getLsbD x := by
  rw [sheetOfRows_getLsbD, decide_eq_true hz64, decide_eq_true hz, Bool.true_and, Bool.true_and]

theorem sheetOfRows_getLsbD_of_ge {L : Nat} (r : Nat → Word) (x : Nat) {z : Nat} (hz : L ≤ z) :
    (sheetOfRows L r x).getLsbD z = false := by
  rw [sheetOfRows_getLsbD, decide_eq_false (Nat.not_lt.mpr hz), Bool.false_and, Bool.and_false]

theorem rowOfSheets_getLsbD_of_lt (sh : Nat → Word) (z : Nat) {x : Nat} (hx : x < 5) :
    (rowOfSheets sh z).getLsbD x = (sh x).getLsbD z := by
  rw [rowOfSheets_getLsbD, decide_eq_true hx, Bool.true_and]

theorem rowOfSheets_getLsbD_of_ge (sh : Nat → Word) (z : Nat) {x : Nat} (hx : 5 ≤ x) :
    (rowOfSheets sh z).getLsbD x = false := by
  rw [rowOfSheets_getLsbD, decide_eq_false (Nat.not_lt.mpr hx), Bool.false_and]

/-- Every sheet S2H makes is a LaneValue (spec/42 R161). -/
theorem sheetOfRows_lt (L : Nat) (r : Nat → Word) (x : Nat) : (sheetOfRows L r x).toNat < 2 ^ L :=
  toNat_lt_of_getLsbD fun _ => sheetOfRows_getLsbD_of_ge r x

theorem sheetOfRows_congr {L : Nat} {r r' : Nat → Word} (h : ∀ z < L, r z = r' z) (x : Nat) :
    sheetOfRows L r x = sheetOfRows L r' x :=
  orBelow_congr fun z hz => by rw [h z hz]

theorem rowOfSheets_congr {sh sh' : Nat → Word} (h : ∀ x < 5, sh x = sh' x) (z : Nat) :
    rowOfSheets sh z = rowOfSheets sh' z :=
  orBelow_congr fun x hx => by rw [h x hx]

/-! ### The conversions undo each other (spec/42 R164) -/

/-- Back from the sheets, a RowValue below L is as before: its five bits, and nothing above them. -/
theorem rowOfSheets_sheetOfRows {L : Nat} {r : Nat → Word} {z : Nat} (hz64 : z < 64) (hz : z < L)
    (hr : (r z).toNat < 32) : rowOfSheets (sheetOfRows L r) z = r z := by
  refine BitVec.eq_of_getLsbD_eq fun x _ => ?_
  obtain hx | hx := Nat.lt_or_ge x 5
  · rw [rowOfSheets_getLsbD_of_lt _ _ hx, sheetOfRows_getLsbD_of_lt _ _ hz64 hz]
  · have hbit : (r z).getLsbD x = false :=
      Nat.testBit_lt_two_pow (Nat.lt_of_lt_of_le hr (Nat.pow_le_pow_right (n := 2) (by decide) hx))
    rw [rowOfSheets_getLsbD_of_ge _ _ hx, hbit]

/-- Back from the rows, a LaneValue is as before: its bits below L, and nothing above them. -/
theorem sheetOfRows_rowOfSheets {L : Nat} {sh : Nat → Word} {x : Nat} (hx : x < 5)
    (hv : validLane (sh x) L = true) : sheetOfRows L (rowOfSheets sh) x = sh x := by
  refine BitVec.eq_of_getLsbD_eq fun z hz64 => ?_
  obtain hz | hz := Nat.lt_or_ge z L
  · rw [sheetOfRows_getLsbD_of_lt _ _ hz64 hz, rowOfSheets_getLsbD_of_lt _ _ hx]
  · rw [sheetOfRows_getLsbD_of_ge _ _ hz, getLsbD_of_validLane hv hz]

/-- H2S after S2H: with the sheets of the rows in SP, and these rows in RP, H2S passes its check and leaves RP. -/
theorem exec_h2s_of_sp_sheetOfRows {u : State}
    (hsp : ∀ x : Fin 5, u.sp[x] = sheetOfRows u.laneSize u.rowAt x.val)
    (hrp : ∀ z : Fin 64, z.val < u.laneSize → u.rp[z].toNat < 32) :
    ∃ v, exec .h2s u = .next v ∧ v.err = u.err ∧ v.rp = u.rp := by
  have hvalid : u.sheetsValid = true := (sheetsValid_iff u).mpr fun x => .inr (hsp x ▸ sheetOfRows_lt _ _ _)
  have hsheet : ∀ x < 5, u.sheetAt x = sheetOfRows u.laneSize u.rowAt x := fun x hx =>
    (sheetAt_eq u ⟨x, hx⟩).trans (hsp ⟨x, hx⟩)
  have hsame : ∀ z : Fin 64, z.val < u.laneSize → rowOfSheets u.sheetAt z.val = u.rp[z] := fun z hz => by
    rw [rowOfSheets_congr hsheet, rowOfSheets_sheetOfRows z.isLt hz (rowAt_eq u z ▸ hrp z hz), rowAt_eq]
  refine ⟨_, exec_h2s_of_sheetsValid hvalid, ?_, ?_⟩
  · rw [endCommand_err, setRows_err]
  · rw [endCommand_rp, setRows_rp_of_same hsame]

/-- S2H after H2S: with the rows of the sheets in RP, and these sheets in SP, S2H passes its check and leaves SP. -/
theorem exec_s2h_of_rp_rowOfSheets {u : State}
    (hrp : ∀ z : Fin 64, z.val < u.laneSize → u.rp[z] = rowOfSheets u.sheetAt z.val)
    (hL : u.laneSize ≤ 64) (hvalid : u.sheetsValid = true) :
    ∃ v, exec .s2h u = .next v ∧ v.err = u.err ∧ v.sp = u.sp := by
  have hrows : ∀ z : Fin 64, z.val < u.laneSize → u.rp[z].toNat < 32 := fun z hz => hrp z hz ▸ rowOfSheets_lt _ _
  have hrow : ∀ z < u.laneSize, u.rowAt z = rowOfSheets u.sheetAt z := fun z hz =>
    (rowAt_eq u ⟨z, by omega⟩).trans (hrp ⟨z, by omega⟩ hz)
  refine ⟨_, exec_s2h_of_rows_lt hrows, rfl, setSheets_sp_of_same fun x => ?_⟩
  have hlane : validLane (u.sheetAt x.val) u.laneSize = true := (allBelow_iff _ _).mp hvalid x.val x.isLt
  rw [sheetOfRows_congr hrow, sheetOfRows_rowOfSheets x.isLt hlane, sheetAt_eq]

end Sys2Proof.Machine

/-! ### The obligations -/

namespace Sys2Proof.AxisConversionProofs

open Sys2Proof.Machine

/-- Settles O18: the one check is the rows', and SP[x] becomes `sheetOfRows` of them, bit by bit. -/
theorem s2hTransposesRows : Obligations.S2hTransposesRows := by
  refine ⟨by decide, fun s => ⟨fun h => ?_, fun h => ?_⟩⟩
  · exact exec_errored (i := .s2h) (firstFailing_of_fail (rowsValid_eq_false h) .value [])
  · refine ⟨_, exec_s2h_of_rows_lt h, endCommand_setSheets _ s, fun x z hz => ?_, fun x z hz => ?_⟩
    · rw [endCommand_setSheets_sp, sheetOfRows_getLsbD_of_lt _ _ z.isLt hz, rowAt_eq]
    · rw [endCommand_setSheets_sp, sheetOfRows_getLsbD_of_ge _ _ hz]

/-- Settles O19: the one check is the sheets'; RP[z] below L becomes `rowOfSheets`, and `setRows` keeps the rest. -/
theorem h2sTransposesSheets : Obligations.H2sTransposesSheets := by
  refine ⟨by decide, fun s => ⟨fun h => ?_, fun h => ?_⟩⟩
  · exact exec_errored (i := .h2s) (firstFailing_of_fail (sheetsValid_eq_false h) .value [])
  · refine ⟨_, exec_h2s_of_sheetsValid ((sheetsValid_iff s).mpr h), endCommand_setRows _ _ s, fun z hz => ?_,
      fun z hz => ?_⟩
    · rw [endCommand_setRows_rp, if_pos hz]
      exact ⟨rowOfSheets_lt _ _, fun x => by rw [rowOfSheets_getLsbD_of_lt _ _ x.isLt, sheetAt_eq]⟩
    · rw [endCommand_setRows_rp, if_neg (Nat.not_lt.mpr hz)]

/-- Settles O24: each command writes one buffer and leaves the other, so the two hold transposes of each other, and the
second command writes what it finds. -/
theorem axisConversionsAreInverse : Obligations.AxisConversionsAreInverse := by
  refine fun s hlog2l => ⟨fun h => ?_, fun h => ?_⟩
  · refine ⟨_, exec_s2h_of_rows_lt h, fun u hrp hsp hlog => ?_⟩
    have hL : u.laneSize = s.laneSize := laneSize_congr hlog
    have hrp : u.rp = s.rp := hrp
    have hrow : u.rowAt = s.rowAt := funext fun z => by rw [State.rowAt, State.rowAt, hrp]
    rw [← hrp]
    refine exec_h2s_of_sp_sheetOfRows (fun x => ?_) (hL ▸ hrp ▸ h)
    rw [hsp, endCommand_setSheets_sp, hL, hrow]
  · have hvalid : s.sheetsValid = true := (sheetsValid_iff s).mpr h
    refine ⟨_, exec_h2s_of_sheetsValid hvalid, fun u hrp hsp hlog => ?_⟩
    have hL : u.laneSize = s.laneSize := laneSize_congr (by rw [hlog, endCommand_log2l, setRows_log2l])
    have hsp : u.sp = s.sp := by rw [hsp, endCommand_sp, setRows_sp]
    rw [← hsp]
    refine exec_s2h_of_rp_rowOfSheets (fun z hz => ?_) (hL ▸ laneSize_le s hlog2l)
      ((sheetsValid_iff u).mpr (hL ▸ hsp ▸ h))
    rw [hrp, endCommand_setRows_rp, if_pos (hL ▸ hz), sheetAt_congr hsp]

end Sys2Proof.AxisConversionProofs
end

section
/-! SUPPORT. Errors: the checks of an engine step read off the raw bits of the word, what the error record does to a
command and a step to the record, and which error a host write reports. -/

namespace Sys2Proof

/-! ### The fields of a word as numbers (spec/30 R70) -/

theorem opField_toNat (c : Word) : (opField c).toNat = c.toNat % 16 := by
  simp [opField, BitVec.extractLsb'_toNat]

theorem rsv0Field_toNat (c : Word) : (rsv0Field c).toNat = c.toNat / 16 % 16 := by
  simp [rsv0Field, BitVec.extractLsb'_toNat, Nat.shiftRight_eq_div_pow]

theorem slotField_toNat (c : Word) : (slotField c).toNat = c.toNat / 256 % 64 := by
  simp [slotField, BitVec.extractLsb'_toNat, Nat.shiftRight_eq_div_pow]

theorem rsv1Field_toNat (c : Word) : (rsv1Field c).toNat = c.toNat / 16384 := by
  simp only [rsv1Field, BitVec.extractLsb'_toNat, Nat.shiftRight_eq_div_pow]
  omega

/-- A defined OP is one from 1 to 10 (spec/30 R72, R73). -/
theorem exists_ofOp {op : BitVec 4} (h : ¬ (op.toNat = 0 ∨ 10 < op.toNat)) (z : Nat) : ∃ i, ofOp op z = some i := by
  have hlo : 1 ≤ op.toNat := by omega
  have hhi : op.toNat ≤ 10 := by omega
  unfold ofOp
  interval_cases op.toNat <;> exact ⟨_, rfl⟩

/-- A command has a slot exactly if its OP is 5 or 7 (spec/30 R70). -/
theorem Instr.hasSlot_iff (i : Instr) : i.hasSlot = true ↔ i.op.toNat = 5 ∨ i.op.toNat = 7 := by
  cases i <;> simp [Instr.hasSlot, Instr.op]

/-- A word that passes the first three checks of spec/30 R80 decodes. -/
theorem exists_decode {c : Word} (hop : ¬ (c.toNat % 16 = 0 ∨ 10 < c.toNat % 16))
    (hrsv : ¬ (c.toNat / 16 % 16 ≠ 0 ∨ c.toNat / 16384 ≠ 0))
    (hz : ¬ (c.toNat % 16 ≠ 5 ∧ c.toNat % 16 ≠ 7 ∧ c.toNat / 256 % 64 ≠ 0)) : ∃ i, decode c = .ok i := by
  rw [← opField_toNat] at hop hz
  rw [← rsv0Field_toNat, ← rsv1Field_toNat] at hrsv
  rw [← slotField_toNat] at hz
  obtain ⟨i, hi⟩ := exists_ofOp hop (slotField c).toNat
  refine ⟨i, (decode_eq_ok_iff c i).mpr ⟨hi, BitVec.eq_of_toNat_eq ?_, BitVec.eq_of_toNat_eq ?_, ?_⟩⟩
  · change (rsv0Field c).toNat = 0
    omega
  · change (rsv1Field c).toNat = 0
    omega
  · rw [Instr.hasSlot_iff, (op_slot_of_ofOp hi).1, ← BitVec.toNat_inj]
    change _ ∨ (slotField c).toNat = 0
    omega

/-- A word that decodes is, as a number, its command's opcode and slot (spec/30 R72). -/
theorem toNat_of_decode {c : Word} {i : Instr} (h : decode c = .ok i) :
    c.toNat = i.op.toNat + 256 * i.slot := by
  have hz := i.wellFormed_iff.mp (wellFormed_of_decode h)
  have hop := i.op.isLt
  rw [← encode_of_decode h, encode_eq_wordOf, wordOf_ofNat _ hz, BitVec.toNat_ofNat]
  omega

end Sys2Proof

namespace Sys2Proof.Machine

open Sys2Proof.Spec

/-! ### The table of operands (spec/60 R205) as the model's checks -/

@[simp] theorem operandInvalid_slice (s : State) : operandInvalid 1 s = true ↔ validSlice s.arg = false := by
  simp [operandInvalid, validSlice]

/-- PARS has the operands of PARSP, S2H those of PACKA, and UNPK1 and UNPKA take any PK. -/
@[simp] theorem operandInvalid_pars (s : State) : operandInvalid 3 s = operandInvalid 2 s := rfl
@[simp] theorem operandInvalid_s2h (s : State) : operandInvalid 9 s = operandInvalid 6 s := rfl
@[simp] theorem operandInvalid_unpk1 (s : State) : operandInvalid 7 s = false := rfl
@[simp] theorem operandInvalid_unpka (s : State) : operandInvalid 8 s = false := rfl

@[simp] theorem operandInvalid_slices (s : State) : operandInvalid 2 s = true ↔ s.slicesValid = false := by
  rw [← Bool.not_eq_true, slicesValid_iff]
  simp [operandInvalid, State.laneSize]

@[simp] theorem operandInvalid_lanes (s : State) : operandInvalid 4 s = true ↔ s.lanesValid = false := by
  rw [← Bool.not_eq_true, lanesValid_iff]
  simp [operandInvalid, State.laneSize]

@[simp] theorem operandInvalid_row (s : State) : operandInvalid 5 s = true ↔ validRow s.arg = false := by
  simp [operandInvalid, validRow]

@[simp] theorem operandInvalid_rows (s : State) : operandInvalid 6 s = true ↔ s.rowsValid = false := by
  rw [← Bool.not_eq_true, rowsValid_iff]
  simp [operandInvalid, State.laneSize]

@[simp] theorem operandInvalid_sheets (s : State) : operandInvalid 10 s = true ↔ s.sheetsValid = false := by
  rw [← Bool.not_eq_true, sheetsValid_iff]
  simp [operandInvalid, State.laneSize]

theorem lt_laneSize_iff (s : State) : 8 < s.laneSize ↔ s.laneSizePacks = false := by
  simp [State.laneSizePacks]

theorem le_slot_iff (z : Nat) : 8 ≤ z ↔ slotInRange z = false := by
  simp [slotInRange]

theorem firstFailing_nil : firstFailing [] = none := rfl

theorem firstFailing_cons (ok : Bool) (c : ErrCode) (rest : List (Bool × ErrCode)) :
    firstFailing ((ok, c) :: rest) = if ok = false then some c else firstFailing rest := by
  cases ok <;> rfl

/-! ### The engine step and `executeError` (spec/30 R80, spec/60 R209) -/

/-- A word that spells no command fails one of the first three checks. -/
theorem executeError_of_decode_error {c : Word} {e : DecodeError} (h : decode c = .error e) (s : State) :
    executeError c s = some 1 := by
  simp only [executeError]
  split
  case isTrue => rfl
  case isFalse hop =>
    split
    case isTrue => rfl
    case isFalse hrsv =>
      split
      case isTrue => rfl
      case isFalse hz =>
        obtain ⟨i, hi⟩ := exists_decode hop hrsv hz
        cases h.symm.trans hi

/-- Of a word that spells a command only the checks of L, of the slot and of the operands are left. -/
theorem executeError_of_decode {c : Word} {i : Instr} (h : decode c = .ok i) (s : State) :
    executeError c s =
      if (i.op.toNat = 2 ∨ i.op.toNat = 6 ∨ i.op.toNat = 8) ∧ 8 < s.laneSize then some 2
      else if (i.op.toNat = 5 ∨ i.op.toNat = 7) ∧ 8 ≤ i.slot then some 3
      else if operandInvalid i.op.toNat s then some 4
      else none := by
  have hc := toNat_of_decode h
  have hslot := i.wellFormed_iff.mp (wellFormed_of_decode h)
  have hdef : 1 ≤ i.op.toNat ∧ i.op.toNat ≤ 10 := by cases i <;> simp [Instr.op]
  have hstray : ¬ (i.op.toNat ≠ 5 ∧ i.op.toNat ≠ 7 ∧ i.slot ≠ 0) := fun ⟨h5, h7, h0⟩ =>
    h0 (Instr.slot_of_hasSlot_false (Bool.eq_false_iff.mpr fun hs => (i.hasSlot_iff.mp hs).elim h5 h7))
  have hop : c.toNat % 16 = i.op.toNat := by omega
  have hz : c.toNat / 256 % 64 = i.slot := by omega
  simp only [executeError, hop, hz]
  rw [if_neg (by omega), if_neg (by omega), if_neg hstray]
  rfl

/-- The checks of a command in their order, in the terms of the tables of spec/60 R203 to R205. -/
theorem firstFailing_checksOf (i : Instr) (s : State) :
    firstFailing (checksOf i s) =
      if (i.op.toNat = 2 ∨ i.op.toNat = 6 ∨ i.op.toNat = 8) ∧ 8 < s.laneSize then some .lsize
      else if (i.op.toNat = 5 ∨ i.op.toNat = 7) ∧ 8 ≤ i.slot then some .slot
      else if operandInvalid i.op.toNat s then some .value
      else none := by
  simp only [lt_laneSize_iff, le_slot_iff]
  cases i with
  | pack1 z | unpk1 z => simp [checksOf, firstFailing_cons, firstFailing_nil, Instr.op, Instr.slot]
  | pars1 | parsp | pars | parl | packa | unpka | s2h | h2s =>
    simp [checksOf, firstFailing_cons, firstFailing_nil, Instr.op]

/-- The error of spec/30 R80 for a command is that of its first failing check. -/
theorem executeError_eq_firstFailing {c : Word} {i : Instr} (h : decode c = .ok i) (s : State) :
    executeError c s = (firstFailing (checksOf i s)).map ErrCode.code := by
  rw [executeError_of_decode h, firstFailing_checksOf]
  split
  · rfl
  split
  · rfl
  split <;> rfl

/-! ### The error record under a command and a step (spec/60 R211, R212) -/

/-- ERR and ERRCODE are not among what a command checks. -/
theorem checksOf_withErrorRecord (i : Instr) (s : State) (e : Bool) (c : BitVec 4) :
    checksOf i { s with err := e, errcode := c } = checksOf i s := by
  cases i <;> rfl

/-- ERR and ERRCODE are not among what a command computes from. -/
theorem performOf_withErrorRecord (i : Instr) (s : State) (e : Bool) (c : BitVec 4) :
    performOf i { s with err := e, errcode := c } = { performOf i s with err := e, errcode := c } := by
  cases i with
  | pars | unpka | h2s => simp only [performOf, setRows]; rfl
  | pars1 | parsp | parl | pack1 z | packa | unpk1 z | s2h => rfl

/-- The first error wins: with ERR = 1 recording another changes nothing. -/
theorem recordError_of_err {s : State} (h : s.err = true) (c : ErrCode) : recordError c s = s := by
  rw [recordError, if_pos h]

theorem recordError_of_not_err {s : State} (h : s.err = false) (c : ErrCode) :
    recordError c s = { s with err := true, errcode := c.code } := by
  simp [recordError, h]

/-- From `s` to `t` neither ERR nor ERRCODE changes. -/
def ErrorKept (s t : State) : Prop := t.err = s.err ∧ t.errcode = s.errcode

theorem ErrorKept.refl (s : State) : ErrorKept s s := ⟨rfl, rfl⟩

theorem errorKept_recordError {s : State} (h : s.err = true) (c : ErrCode) : ErrorKept s (recordError c s) := by
  rw [recordError_of_err h]
  exact .refl s

theorem errorKept_performOf (i : Instr) (s : State) : ErrorKept s (performOf i s) :=
  ⟨performOf_err i s, performOf_errcode i s⟩

theorem errorKept_exec {i : Instr} {s t : State} (h : s.err = true) (he : exec i s = .next t) : ErrorKept s t := by
  obtain ⟨-, rfl⟩ | ⟨c, -, rfl⟩ := exec_cases he
  · exact errorKept_performOf i s
  · exact errorKept_recordError h c

theorem errorKept_engineTurn {s t : State} (h : s.err = true) (he : engineTurn s = .next t) : ErrorKept s t := by
  obtain ⟨-, rfl⟩ | ⟨-, i, -, hx⟩ | ⟨-, e, -, rfl⟩ := engineTurn_cases he
  · exact .refl _
  · exact errorKept_exec h hx
  · exact errorKept_recordError h .opcode

/-- A read that reaches a register or entry raises no error (spec/20 R57). -/
theorem errorKept_memRead_of_reach {width off : Nat} {r : Loc} (h : reach width off = some r) (s : State) :
    ErrorKept s (memRead width off s).2 := by
  rw [memRead, h]
  dsimp only
  split
  · exact ⟨rfl, rfl⟩
  · exact .refl s

theorem errorKept_memRead {s : State} (h : s.err = true) (width off : Nat) :
    ErrorKept s (memRead width off s).2 := by
  cases hr : reach width off with
  | none => rw [memRead, hr]; exact errorKept_recordError h .access
  | some r => exact errorKept_memRead_of_reach hr s

theorem log2lField_eq (v : Word) : log2lField v = BitVec.ofNat 3 (v.toNat % 8) := by
  apply BitVec.eq_of_toNat_eq
  simp [log2lField, BitVec.extractLsb'_toNat]

theorem log2lField_eq_seven_iff (v : Word) : log2lField v = 7 ↔ v.toNat % 8 = 7 := by
  rw [log2lField_eq, ← BitVec.toNat_inj]
  simp

/-- The one accepted write that raises an error is that of 7 to CFG (spec/60 R206). -/
theorem errorKept_acceptWrite {r : Loc} {v : Word} (h : ¬ (r = .cfg ∧ v.toNat % 8 = 7)) (s : State) :
    ErrorKept s (acceptWrite r v s) := by
  cases r with
  | cfg =>
    rw [acceptWrite, if_neg fun h7 => h ⟨rfl, (log2lField_eq_seven_iff v).mp h7⟩]
    exact ⟨rfl, rfl⟩
  | status | cmd | arg | res | pk | sb z | lb k | rp z | sp x => exact ⟨rfl, rfl⟩

theorem acceptWrite_cfg_of_seven {v : Word} (h : v.toNat % 8 = 7) (s : State) :
    acceptWrite .cfg v s = recordError .cfg s := by
  rw [acceptWrite, if_pos ((log2lField_eq_seven_iff v).mpr h)]

/-- With ERR = 1 a write keeps the record, or is the write to STATUS that clears it (spec/60 R211, R213). -/
theorem memWrite_errorKept_or_clears {s : State} (h : s.err = true) (width off : Nat) (v : Word) :
    ErrorKept s (memWrite width off v s) ∨
      (width = 8 ∧ off = 0x000 ∧ v.getLsbD 1 = true ∧ memWrite width off v s = clearError s) := by
  obtain ⟨-, e⟩ | ⟨hr, hv, e⟩ | ⟨-, -, e⟩ | ⟨r, -, -, -, ⟨-, e⟩ | ⟨-, e⟩⟩ := memWrite_cases width off v s
  · rw [e]; exact .inl (errorKept_recordError h .access)
  · obtain ⟨hw, hoff⟩ := (reach_eq_some_iff width off .status).mp hr
    exact .inr ⟨hw, hoff, hv, e⟩
  · rw [e]; exact .inl (.refl s)
  · rw [e]; exact .inl (errorKept_recordError h .busy)
  · rw [e]
    left
    by_cases h7 : r = .cfg ∧ v.toNat % 8 = 7
    · rw [h7.1, acceptWrite_cfg_of_seven h7.2]; exact errorKept_recordError h .cfg
    · exact errorKept_acceptWrite h7 s

theorem errorKept_syncOnce (v : Word) (rest : List HostStmt) (s : State) : ErrorKept s (syncOnce v rest s) := by
  unfold syncOnce
  split <;> exact ⟨rfl, rfl⟩

/-- With ERR = 1 the host's turn keeps the record, or makes the write to STATUS that clears it. -/
theorem hostTurn_errorKept_or_clears {s : State} (h : s.err = true) :
    ErrorKept s (hostTurn s) ∨
      ∃ v rest, s.host = .access (.write 8 0x000 v) :: rest ∧ v.getLsbD 1 = true ∧
        hostTurn s = clearError { s with host := rest } := by
  obtain ⟨-, e⟩ | ⟨w, off, rest, -, e⟩ | ⟨w, off, v, rest, hh, e⟩ | ⟨rest, -, e⟩ := hostTurn_cases s <;> rw [e]
  · exact .inl (.refl s)
  · exact .inl (errorKept_memRead (s := { s with host := rest }) h w off)
  · refine (memWrite_errorKept_or_clears (s := { s with host := rest }) h w off v).imp_right ?_
    rintro ⟨rfl, rfl, hv, hc⟩
    exact ⟨v, rest, hh, hv, hc⟩
  · exact .inl (errorKept_syncOnce _ rest s)

theorem resetNext_of_nextTurn {s : State} (h : nextTurn s = .reset ∨ nextTurn s = .resetHost) : resetNext s := by
  unfold nextTurn at h
  split at h
  next t rest hs => exact ⟨rest, h.imp (fun e => by rw [hs, e]) (fun e => by rw [hs, e])⟩
  next => split at h <;> simp at h

/-! ### BUSY under a step (spec/60 R220) -/

theorem BlockKept.busy {s t : State} (h : BlockKept s t) : t.busy = s.busy := by
  rw [h]

/-- Of the accepted writes only CMD's sets BUSY (spec/30 R78). -/
theorem acceptWrite_busy_of_ne {r : Loc} (h : r ≠ .cmd) (v : Word) (s : State) :
    (acceptWrite r v s).busy = s.busy := by
  cases r with
  | cmd => contradiction
  | cfg => rw [acceptWrite]; split <;> simp
  | status | arg | res | pk | sb z | lb k | rp z | sp x => rfl

/-- An idle write that sets BUSY is an accepted CMD write. -/
theorem memWrite_sets_busy {s : State} (hb : s.busy = false) {width off : Nat} {v : Word}
    (h : (memWrite width off v s).busy = true) :
    width = 8 ∧ off = 0x010 ∧ memWrite width off v s = issue v s := by
  obtain ⟨-, e⟩ | ⟨-, -, e⟩ | ⟨-, -, e⟩ | ⟨r, hr, -, -, ⟨-, e⟩ | ⟨-, e⟩⟩ := memWrite_cases width off v s <;>
    rw [e] at h ⊢
  · simp [hb] at h
  · simp [hb] at h
  · simp [hb] at h
  · simp [hb] at h
  · obtain ⟨hw, hoff⟩ := (reach_eq_some_iff width off r).mp hr
    by_cases hcmd : r = .cmd
    · subst hcmd; exact ⟨hw, hoff, rfl⟩
    · rw [acceptWrite_busy_of_ne hcmd, hb] at h
      cases h

/-- An idle host turn that sets BUSY makes an accepted CMD write. -/
theorem hostTurn_sets_busy {s : State} (hb : s.busy = false) (h : (hostTurn s).busy = true) :
    ∃ v rest, s.host = .access (.write 8 0x010 v) :: rest ∧ hostTurn s = issue v { s with host := rest } := by
  obtain ⟨-, e⟩ | ⟨w, off, rest, -, e⟩ | ⟨w, off, v, rest, hh, e⟩ | ⟨rest, -, e⟩ := hostTurn_cases s <;> rw [e] at h ⊢
  · simp [hb] at h
  · rw [recordRead_busy, (blockKept_memRead w off _).busy, hb] at h
    cases h
  · obtain ⟨rfl, rfl, hi⟩ := memWrite_sets_busy (s := { s with host := rest }) hb h
    exact ⟨v, rest, hh, hi⟩
  · rw [(blockKept_syncOnce _ rest s).busy, hb] at h
    cases h

/-! ### STATUS and CFG (spec/10 R29, R30) -/

/-- ERRCODE is at [7:4], ERR at bit 1, BUSY at bit 0, and every other bit 0. -/
theorem statusWord_getLsbD (s : State) (k : Nat) :
    (statusWord s).getLsbD k =
      (decide (4 ≤ k) && s.errcode.getLsbD (k - 4) || (decide (k = 1) && s.err || decide (k = 0) && s.busy)) := by
  simp only [statusWord, BitVec.getLsbD_or, BitVec.getLsbD_shiftLeft, BitVec.getLsbD_setWidth, BitVec.getLsbD_ofBool]
  match k with
  | 0 | 1 | 2 | 3 => simp
  | k + 4 =>
    by_cases hk : k < 4
    · simp [show k + 4 < 64 by omega, show k < 64 by omega]
    · simp [BitVec.getLsbD_of_ge s.errcode k (by omega)]

theorem cfgWord_toNat (s : State) : (cfgWord s).toNat = s.log2l.toNat :=
  BitVec.toNat_setWidth_of_le (by decide)

theorem memWrite_status (v : Word) (s : State) :
    memWrite 8 Loc.status.offset v s = if clearsError v then clearError s else s := by
  rw [memWrite, reach_offset]

/-- While BUSY = 1 a write is dropped with E_BUSY, but for STATUS and RES (spec/60 R207). -/
theorem memWrite_busy {s : State} (hb : s.busy = true) {r : Loc} (hs : r ≠ .status) (hr : r ≠ .res) (v : Word) :
    memWrite 8 r.offset v s = refusedAccess s 6 := by
  obtain ⟨h, -⟩ | ⟨h, -, -⟩ | ⟨h, -, -⟩ | ⟨r', -, -, -, ⟨-, e⟩ | ⟨hidle, -⟩⟩ := memWrite_cases 8 r.offset v s
  · simp [reach_offset, hr] at h
  · simp [reach_offset, hs] at h
  · simp [reach_offset, hs] at h
  · rw [e]; exact recordError_eq .busy s
  · rw [hb] at hidle; cases hidle

/-- With BUSY = 0 a write, but for STATUS and RES, is accepted (spec/20 R52). -/
theorem memWrite_accepted {s : State} (hb : s.busy = false) {r : Loc} (hs : r ≠ .status) (hr : r ≠ .res) (v : Word) :
    memWrite 8 r.offset v s = acceptWrite r v s := by
  obtain ⟨h, -⟩ | ⟨h, -, -⟩ | ⟨h, -, -⟩ | ⟨r', h, -, -, ⟨hbusy, -⟩ | ⟨-, e⟩⟩ := memWrite_cases 8 r.offset v s
  · simp [reach_offset, hr] at h
  · simp [reach_offset, hs] at h
  · simp [reach_offset, hs] at h
  · rw [hb] at hbusy; cases hbusy
  · rw [e, Option.some.inj ((reach_offset r).symm.trans h)]

/-! ### Which error a host write reports (spec/60 R210) -/

theorem offset_injective {r r' : Loc} (h : r.offset = r'.offset) : r = r' := by
  rw [← Option.some.injEq, ← locate_offset r, h, locate_offset]

theorem mapped_offset_eq_true (r : Loc) : mapped r.offset = true := by
  rw [← Bool.not_eq_false, mapped_eq_false_iff, not_not]
  exact mapped_offset r

theorem hostWriteError_of_reach_none {width off : Nat} (h : reach width off = none) (v : Word) (s : State) :
    hostWriteError width off v s = some 7 := by
  rw [reach_eq_none_iff] at h
  exact if_pos (h.imp_right .inl)

theorem hostWriteError_status (v : Word) (s : State) : hostWriteError 8 Loc.status.offset v s = none := rfl

/-- Of a register or entry but STATUS and RES the checks of BUSY and of CFG are left. -/
theorem hostWriteError_offset {r : Loc} (hs : r ≠ .status) (hr : r ≠ .res) (v : Word) (s : State) :
    hostWriteError 8 r.offset v s =
      if s.busy then some 6 else if r = .cfg ∧ v.toNat % 8 = 7 then some 5 else none := by
  have hs' : r.offset ≠ 0x000 := fun h => hs (offset_injective (r' := .status) h)
  have hr' : r.offset ≠ 0x020 := fun h => hr (offset_injective (r' := .res) h)
  have hcfg : r.offset = 0x008 ↔ r = .cfg := ⟨fun h => offset_injective (r' := .cfg) h, fun h => h ▸ rfl⟩
  simp [hostWriteError, mapped_offset_eq_true, hs', hr', hcfg]

end Sys2Proof.Machine

/-! ### The obligations -/

namespace Sys2Proof.ExceptionProofs

open Sys2Proof.Machine Sys2Proof.Spec

/-- Settles O8: an engine turn and a reset leave BUSY = 0, and of the host's accesses only CMD's write issues. -/
theorem idleEngineWaitsForCmdWrite : Obligations.IdleEngineWaitsForCmdWrite := by
  refine fun s hb => ⟨by simp [engineTurn, hb], fun t hs ht => ?_⟩
  obtain ⟨-, he⟩ | ⟨-, rfl⟩ | ⟨-, rfl⟩ | ⟨-, rfl⟩ := step_cases hs
  · rw [engineTurn_not_busy he] at ht
    cases ht
  · obtain ⟨v, rest, hh, hi⟩ := hostTurn_sets_busy (s := dropTurn s) hb ht
    exact ⟨v, rest, hh, by rw [hi]; rfl, by rw [hi]; rfl⟩
  · cases ht
  · cases ht

/-- Settles O9: a word of no command fails one of the first three checks, and for one of a command the checks left are
those the command lists, in that order. -/
theorem engineStepReportsFirstFailingCheck : Obligations.EngineStepReportsFirstFailingCheck := by
  intro s hb
  cases hd : decode s.pend with
  | error e =>
    rw [executeError_of_decode_error hd]
    exact engineTurn_of_no_row hb ((no_row_iff s.pend).mpr ⟨e, hd⟩)
  | ok i =>
    rw [executeError_eq_firstFailing hd, engineTurn_of_decode hb hd]
    cases hf : firstFailing (checksOf i s) with
    | none => exact ⟨_, exec_pass hf, rfl, errorKept_performOf i s⟩
    | some c => exact exec_errored hf

/-- Settles O28: the checks are the same from both states, and what is performed differs in the record alone. -/
theorem errorRecordChangesNoResult : Obligations.ErrorRecordChangesNoResult := by
  intro i s e c
  have hchecks := checksOf_withErrorRecord i s e c
  cases hf : firstFailing (checksOf i s) with
  | none =>
    refine ⟨_, _, exec_pass hf, exec_pass (hchecks ▸ hf), ?_⟩
    rw [performOf_withErrorRecord]
    rfl
  | some d => exact ⟨_, _, exec_errored hf, exec_errored (hchecks ▸ hf), rfl⟩

/-- Settles O33: with ERR = 1 recording an error changes nothing, so the record stays but for reset and `clearError`. -/
theorem errorRecordIsSticky : Obligations.ErrorRecordIsSticky := by
  refine ⟨fun c s => ⟨fun h => recordError_of_not_err h c, fun h => recordError_of_err h c⟩, fun s t h hs => ?_⟩
  obtain ⟨-, he⟩ | ⟨-, rfl⟩ | ⟨hn, -⟩ | ⟨hn, -⟩ := step_cases hs
  · obtain ⟨herr, hcode⟩ := errorKept_engineTurn (s := dropTurn s) h he
    exact .inl ⟨herr.trans h, hcode⟩
  · obtain ⟨herr, hcode⟩ | ⟨v, rest, hh, hv, hc⟩ := hostTurn_errorKept_or_clears (s := dropTurn s) h
    · exact .inl ⟨herr.trans h, hcode⟩
    · exact .inr (.inr ⟨v, rest, hh, hv, by rw [hc]; rfl, by rw [hc]; rfl⟩)
  · exact .inr (.inl (resetNext_of_nextTurn (.inl hn)))
  · exact .inr (.inl (resetNext_of_nextTurn (.inr hn)))

/-- Settles O38: each of the bad accesses reaches nothing, and RES takes no write. -/
theorem badAccessRecordsAccessError : Obligations.BadAccessRecordsAccessError := by
  refine fun s width off v => ⟨fun h => ?_, fun hw hoff => by rw [hw, hoff]; exact memWrite_res v s⟩
  have hn : reach width off = none := by
    rw [reach_eq_none_iff]
    exact h.imp_right fun h => h.elim (fun h8 => by simp [mapped, h8]) id
  exact ⟨memWrite_of_reach_none hn v s, memRead_of_reach_none hn s⟩

/-- Settles O39: E_BUSY is raised before the write, and STATUS is written whatever BUSY is. -/
theorem busyWritesAreDropped : Obligations.BusyWritesAreDropped :=
  fun s v hb => ⟨fun _ hs hr => memWrite_busy hb hs hr v, fun hv => (memWrite_status v s).trans (if_pos hv)⟩

/-- Settles O42: by what the access reaches, which decides the checks that are left. -/
theorem hostAccessReportsFirstFailingCheck : Obligations.HostAccessReportsFirstFailingCheck := by
  refine fun s width off v => ⟨?_, ?_⟩
  · cases hr : reach width off with
    | none =>
      rw [hostWriteError_of_reach_none hr]
      exact memWrite_of_reach_none hr v s
    | some r =>
      obtain ⟨rfl, rfl⟩ := (reach_eq_some_iff width off r).mp hr
      by_cases hstatus : r = .status
      · subst hstatus
        rw [hostWriteError_status, memWrite_status]
        cases clearsError v with
        | true => exact .inr ⟨rfl, rfl, rfl⟩
        | false => exact .inl ⟨rfl, rfl⟩
      by_cases hres : r = .res
      · subst hres
        exact memWrite_res v s
      rw [hostWriteError_offset hstatus hres]
      cases hb : s.busy with
      | true => exact memWrite_busy hb hstatus hres v
      | false =>
        rw [memWrite_accepted hb hstatus hres]
        by_cases h7 : r = .cfg ∧ v.toNat % 8 = 7
        · rw [if_neg Bool.false_ne_true, if_pos h7, h7.1, acceptWrite_cfg_of_seven h7.2]
          exact recordError_eq .cfg s
        · rw [if_neg Bool.false_ne_true, if_neg h7]
          exact .inl (errorKept_acceptWrite h7 s)
  · split
    case isTrue h => rw [memRead_of_reach_none ((reach_eq_none_iff width off).mpr h)]
    case isFalse h =>
      obtain ⟨r, hr⟩ := Option.ne_none_iff_exists'.mp (mt (reach_eq_none_iff width off).mp h)
      exact errorKept_memRead_of_reach hr s

/-- Settles O34: a STATUS access reaches `statusWord` and `clearError`. -/
theorem statusReadsFieldsAndClears : Obligations.StatusReadsFieldsAndClears := by
  intro s
  have hread : memRead 8 0x000 s = (statusWord s, s) := memRead_of_readsExactly (r := .status) rfl s
  have hwrite : ∀ v, memWrite 8 0x000 v s = if clearsError v then clearError s else s := fun v => memWrite_status v s
  rw [hread]
  refine ⟨⟨rfl, ?_, ?_, fun k hk => ?_, fun k hk => ?_⟩, fun v => ⟨fun hv => ?_, fun hv => ?_, recordError_of_err⟩⟩
  · exact showsBusy_statusWord s
  · rw [statusWord_getLsbD]
    simp
  · rw [statusWord_getLsbD]
    simp [show 4 + k ≠ 1 by omega]
  · rw [statusWord_getLsbD]
    obtain rfl | rfl | hk := hk
    · simp
    · simp
    · simp [BitVec.getLsbD_of_ge s.errcode (k - 4) (by omega), show k ≠ 1 by omega, show k ≠ 0 by omega]
  · exact (hwrite v).trans (if_pos hv)
  · exact (hwrite v).trans (if_neg (by rw [clearsError, hv]; decide))

/-- Settles O35: BUSY is checked before the field 7, which is the one value CFG refuses. -/
theorem cfgWriteSetsLaneSizeOrIsRefused : Obligations.CfgWriteSetsLaneSizeOrIsRefused := by
  intro s v
  have hread : memRead 8 0x008 s = (cfgWord s, s) := memRead_of_readsExactly (r := .cfg) rfl s
  have hidle : s.busy = false → memWrite 8 0x008 v s = acceptWrite .cfg v s := fun hb =>
    memWrite_accepted (r := .cfg) hb (by decide) (by decide) v
  rw [hread]
  refine ⟨rfl, cfgWord_toNat s, rfl, fun hb => memWrite_busy (r := .cfg) hb (by decide) (by decide) v,
    fun hb h7 => ?_, fun hb h7 => ?_⟩
  · rw [hidle hb, acceptWrite_cfg_of_seven h7]
    exact recordError_eq .cfg s
  · rw [hidle hb, acceptWrite, if_neg (mt (log2lField_eq_seven_iff v).mp h7), log2lField_eq]

end Sys2Proof.ExceptionProofs
end

section
/-! SUPPORT. Reset and the BUSY protocol: what a lost access and reset leave, how host turns lead to the engine's, two
CMD writes in a row, and a host that syncs after every command. -/

namespace Sys2Proof.Machine

open Sys2Proof.Spec

/-! ### Reset (spec/70 R240, R241) -/

/-- A lost access leaves the block as it was, and takes at most one statement off the script. -/
theorem loseAccess_eq (s : State) :
    ∃ script vs k, loseAccess s = { s with host := script, reads := vs, draws := s.draws + k } ∧
      (script = s.host ∨ script = s.host.tail) := by
  unfold loseAccess
  split
  next => exact ⟨s.host, s.reads, 0, rfl, .inl rfl⟩
  next width off rest hh => exact ⟨rest, _, 1, rfl, .inr (by rw [hh]; rfl)⟩
  next width off v rest hh => exact ⟨rest, s.reads, 0, rfl, .inr (by rw [hh]; rfl)⟩
  next rest hh =>
    rw [syncOnce]
    split
    · exact ⟨s.host, _, 1, rfl, .inl rfl⟩
    · exact ⟨rest, _, 1, rfl, .inr (by rw [hh]; rfl)⟩

theorem drawnSb_getElem (n : Nat) (z : Fin 64) : (drawnSb n)[z] = Config.resetEntry n z.val := by
  simp [drawnSb]

theorem drawnLb_getElem (n : Nat) (i : Fin 25) : (drawnLb n)[i] = Config.resetEntry n (64 + i.val) := by
  simp [drawnLb]

theorem drawnRp_getElem (n : Nat) (z : Fin 64) : (drawnRp n)[z] = Config.resetEntry n (89 + z.val) := by
  simp [drawnRp]

theorem drawnSp_getElem (n : Nat) (x : Fin 5) : (drawnSp n)[x] = Config.resetEntry n (153 + x.val) := by
  simp [drawnSp]

/-- A reset turn resets the block, after the lost access if one was attempted. -/
theorem step_of_resetNext {s : State} (h : resetNext s) :
    ∃ u, step s = .next (applyReset u) ∧ u.sched = s.sched.tail ∧ s.draws ≤ u.draws := by
  obtain ⟨rest, hs | hs⟩ := h
  · exact ⟨dropTurn s, by rw [step, nextTurn, hs], rfl, le_refl _⟩
  · obtain ⟨script, vs, k, e, -⟩ := loseAccess_eq (dropTurn s)
    refine ⟨loseAccess (dropTurn s), by rw [step, nextTurn, hs], ?_, ?_⟩ <;> rw [e]
    · rfl
    · exact Nat.le_add_right _ _

/-! ### The outside world under the engine and under accesses -/

/-- From `s` to `t` neither the schedule, nor the host's script and reads, nor the draw count changes. -/
def OutsideKept (s t : State) : Prop :=
  t.sched = s.sched ∧ t.host = s.host ∧ t.reads = s.reads ∧ t.draws = s.draws

theorem outsideKept_recordError (c : ErrCode) (s : State) : OutsideKept s (recordError c s) := by
  simp [OutsideKept]

theorem outsideKept_exec {i : Instr} {s t : State} (he : exec i s = .next t) : OutsideKept s t := by
  rw [exec_frame he]
  exact ⟨rfl, rfl, rfl, rfl⟩

theorem outsideKept_engineTurn {s t : State} (he : engineTurn s = .next t) : OutsideKept s t := by
  obtain ⟨-, rfl⟩ | ⟨-, i, -, hx⟩ | ⟨-, e, -, rfl⟩ := engineTurn_cases he
  · exact ⟨rfl, rfl, rfl, rfl⟩
  · exact outsideKept_exec hx
  · exact outsideKept_recordError .opcode s

theorem outsideKept_acceptWrite (r : Loc) (v : Word) (s : State) : OutsideKept s (acceptWrite r v s) := by
  cases r with
  | cfg =>
    rw [acceptWrite]
    split
    · exact outsideKept_recordError .cfg s
    · exact ⟨rfl, rfl, rfl, rfl⟩
  | status | cmd | arg | res | pk | sb z | lb k | rp z | sp x => exact ⟨rfl, rfl, rfl, rfl⟩

theorem outsideKept_memWrite (width off : Nat) (v : Word) (s : State) : OutsideKept s (memWrite width off v s) := by
  obtain ⟨-, e⟩ | ⟨-, -, e⟩ | ⟨-, -, e⟩ | ⟨r, -, -, -, ⟨-, e⟩ | ⟨-, e⟩⟩ := memWrite_cases width off v s <;> rw [e]
  · exact outsideKept_recordError .access s
  · exact ⟨rfl, rfl, rfl, rfl⟩
  · exact ⟨rfl, rfl, rfl, rfl⟩
  · exact outsideKept_recordError .busy s
  · exact outsideKept_acceptWrite r v s

/-- An idle read draws no free value: it leaves the state as it is, or records E_ACCESS (spec/20 R52). -/
theorem memRead_idle_cases {s : State} (hb : s.busy = false) (width off : Nat) :
    (memRead width off s).2 = s ∨ (memRead width off s).2 = recordError .access s := by
  obtain ⟨-, e⟩ | ⟨r, -, ⟨hbusy, -, -⟩ | ⟨-, e⟩⟩ := memRead_cases width off s
  · exact .inr (by rw [e])
  · rw [hb] at hbusy; cases hbusy
  · exact .inl (by rw [e])

theorem outsideKept_memRead {s : State} (hb : s.busy = false) (width off : Nat) :
    OutsideKept s (memRead width off s).2 := by
  obtain e | e := memRead_idle_cases hb width off <;> rw [e]
  · exact ⟨rfl, rfl, rfl, rfl⟩
  · exact outsideKept_recordError .access s

/-! ### Reads while a command is pending (spec/70 R245) -/

theorem Loc.readsExactly_of_ne {r : Loc} (h1 : r ≠ .status) (h2 : r ≠ .cfg) (h3 : r ≠ .cmd) :
    r.readsExactly = false := by
  cases r with
  | status | cfg | cmd => contradiction
  | arg | res | pk | sb z | lb i | rp z | sp x => rfl

/-- A data read while BUSY = 1 returns a free value and counts its draw. -/
theorem memRead_busy {s : State} (hb : s.busy = true) {r : Loc} (hr : r.readsExactly = false) :
    memRead 8 r.offset s = (Config.busyRead s.draws, drawOne s) := by
  rw [memRead, reach_offset]
  simp [hb, hr]

/-! ### The delay of a pending command (spec/70 R249) -/

/-- One more step at the end of a run. -/
theorem core_run_snoc {k : Nat} {s u v : State} (h : core.run k s = .next u) (hv : step u = .next v) :
    core.run (k + 1) s = .next v := by
  induction k generalizing s with
  | zero =>
    cases h
    exact core_run_succ 0 _ v hv
  | succ k ih =>
    obtain ⟨s', hs'⟩ := step_next s
    rw [core_run_succ k s s' hs'] at h
    rw [core_run_succ (k + 1) s s' hs', ih h]

/-- A host turn before the engine's is one turn of the delay. -/
theorem latency_of_host_sched {s : State} {sch : List Turn} (h : s.sched = .host :: sch) :
    latency s = latency (hostTurn { s with sched := sch }) + 1 := by
  simp [latency, h, hostTurn_sched]

/-- Host turns alone lead a pending command to the engine's turn, with the block as it was. -/
theorem exists_run_to_engineNext (sch : List Turn) {s : State} (hb : s.busy = true) (hsch : s.sched = sch)
    (hhost : ∀ a ∈ sch.takeWhile (· ≠ .engine), a = .host) :
    ∃ u, core.run (latency s) s = .next u ∧ BlockKept s u ∧ engineNext u := by
  induction sch generalizing s with
  | nil => exact ⟨s, by rw [latency, hsch]; rfl, rfl, hb, .inl hsch⟩
  | cons a rest ih =>
    by_cases ha : a = .engine
    · subst ha
      exact ⟨s, by rw [latency, hsch]; rfl, rfl, hb, .inr ⟨rest, hsch⟩⟩
    · rw [List.takeWhile_cons_of_pos (by simpa using ha), List.forall_mem_cons] at hhost
      obtain ⟨rfl, hrest⟩ := hhost
      have hk : BlockKept s (hostTurn { s with sched := rest }) := blockKept_hostTurn (s := { s with sched := rest }) hb
      obtain ⟨u, hu, hku, hnext⟩ := ih (hk.busy.trans hb) (hostTurn_sched _) hrest
      refine ⟨u, ?_, hk.trans hku, hnext⟩
      rw [latency_of_host_sched hsch, core_run_succ _ _ _ (step_of_host_sched hsch), hu]

/-! ### CMD writes in the host's turn (spec/30 R78, spec/70 R247) -/

/-- A host turn that makes a CMD write of an idle block issues its word. -/
theorem step_of_cmd_write_idle {s : State} {sch : List Turn} {v : Word} {rest : List HostStmt}
    (hs : s.sched = .host :: sch) (hh : s.host = .access (.write 8 0x010 v) :: rest) (hb : s.busy = false) :
    ∃ u, step s = .next u ∧ u.busy = true ∧ u.pend = v ∧ u.cmd = v ∧ u.err = s.err ∧ u.sched = sch ∧
      u.host = rest := by
  refine ⟨issue v { s with sched := sch, host := rest }, ?_, rfl, rfl, rfl, rfl, rfl, rfl⟩
  rw [step_of_host_sched hs, hostTurn, hh]
  exact congrArg Host.Outcome.next (memWrite_cmd_idle (s := { s with sched := sch, host := rest }) hb v)

/-- A host turn that makes a CMD write while a command is pending loses its word. -/
theorem step_of_cmd_write_busy {s : State} {sch : List Turn} {v : Word} {rest : List HostStmt}
    (hs : s.sched = .host :: sch) (hh : s.host = .access (.write 8 0x010 v) :: rest) (hb : s.busy = true) :
    step s = .next (refusedAccess { s with sched := sch, host := rest } 6) := by
  rw [step_of_host_sched hs, hostTurn, hh]
  exact congrArg Host.Outcome.next (memWrite_cmd_busy (s := { s with sched := sch, host := rest }) hb v)

/-! ### E_BUSY (spec/60 R207) -/

/-- From `s` to `t` no E_BUSY is recorded that was not recorded before. -/
def RecordsNoBusy (s t : State) : Prop := t.err = true → t.errcode = 6 → s.err = true ∧ s.errcode = 6

theorem ErrorKept.recordsNoBusy {s t : State} (h : ErrorKept s t) : RecordsNoBusy s t := by
  obtain ⟨herr, hcode⟩ := h
  exact fun ht h6 => ⟨herr ▸ ht, hcode ▸ h6⟩

theorem recordsNoBusy_of_not_err {s t : State} (h : t.err = false) : RecordsNoBusy s t := by
  intro ht
  rw [h] at ht
  cases ht

theorem ErrCode.code_ne_six {c : ErrCode} (h : c ≠ .busy) : c.code ≠ 6 := by
  cases c with
  | busy => contradiction
  | opcode | lsize | slot | value | cfg | access => decide

/-- Recording another error records no E_BUSY, whether or not an error was there before. -/
theorem recordsNoBusy_recordError {c : ErrCode} (hc : c ≠ .busy) (s : State) : RecordsNoBusy s (recordError c s) := by
  cases h : s.err with
  | true => exact (errorKept_recordError h c).recordsNoBusy
  | false =>
    rw [recordError_of_not_err h]
    exact fun _ h6 => absurd h6 (ErrCode.code_ne_six hc)

/-- No check of a command has the error E_BUSY. -/
theorem ne_busy_of_firstFailing {i : Instr} {s : State} {c : ErrCode} (h : firstFailing (checksOf i s) = some c) :
    c ≠ .busy := by
  rintro rfl
  rw [firstFailing_checksOf] at h
  split_ifs at h <;> simp at h

theorem recordsNoBusy_exec {i : Instr} {s t : State} (he : exec i s = .next t) : RecordsNoBusy s t := by
  obtain ⟨-, rfl⟩ | ⟨c, hc, rfl⟩ := exec_cases he
  · exact (errorKept_performOf i s).recordsNoBusy
  · exact recordsNoBusy_recordError (ne_busy_of_firstFailing hc) s

theorem recordsNoBusy_engineTurn {s t : State} (he : engineTurn s = .next t) : RecordsNoBusy s t := by
  obtain ⟨-, rfl⟩ | ⟨-, i, -, hx⟩ | ⟨-, e, -, rfl⟩ := engineTurn_cases he
  · exact (ErrorKept.refl _).recordsNoBusy
  · exact recordsNoBusy_exec hx
  · exact recordsNoBusy_recordError (by decide) s

/-- The one error an accepted write raises is E_CFG. -/
theorem recordsNoBusy_acceptWrite (r : Loc) (v : Word) (s : State) : RecordsNoBusy s (acceptWrite r v s) := by
  by_cases h7 : r = .cfg ∧ v.toNat % 8 = 7
  · rw [h7.1, acceptWrite_cfg_of_seven h7.2]
    exact recordsNoBusy_recordError (by decide) s
  · exact (errorKept_acceptWrite h7 s).recordsNoBusy

theorem recordsNoBusy_memRead {s : State} (hb : s.busy = false) (width off : Nat) :
    RecordsNoBusy s (memRead width off s).2 := by
  obtain e | e := memRead_idle_cases hb width off <;> rw [e]
  · exact (ErrorKept.refl s).recordsNoBusy
  · exact recordsNoBusy_recordError (by decide) s

theorem recordsNoBusy_memWrite {s : State} (hb : s.busy = false) (width off : Nat) (v : Word) :
    RecordsNoBusy s (memWrite width off v s) := by
  obtain ⟨-, e⟩ | ⟨-, -, e⟩ | ⟨-, -, e⟩ | ⟨r, -, -, -, ⟨hbusy, -⟩ | ⟨-, e⟩⟩ := memWrite_cases width off v s
  · rw [e]; exact recordsNoBusy_recordError (by decide) s
  · rw [e]; exact recordsNoBusy_of_not_err rfl
  · rw [e]; exact (ErrorKept.refl s).recordsNoBusy
  · rw [hb] at hbusy; cases hbusy
  · rw [e]; exact recordsNoBusy_acceptWrite r v s

/-! ### A host that keeps the BUSY protocol (spec/70 R245 to R248) -/

theorem disciplined_tail {script : List HostStmt} (h : disciplined script = true) :
    disciplined script.tail = true := by
  match script with
  | [] => rfl
  | .sync :: rest => exact h
  | .access a :: rest =>
    rw [disciplined, Bool.and_eq_true] at h
    exact h.2

/-- In a disciplined script a CMD write is followed by a `sync`, or by nothing. -/
theorem startsWithSync_of_cmd_write {v : Word} {rest : List HostStmt}
    (h : disciplined (.access (.write 8 0x010 v) :: rest) = true) : startsWithSync rest = true := by
  rw [disciplined, Bool.and_eq_true] at h
  exact h.1

theorem disciplined_loseAccess {s : State} (h : disciplined s.host = true) :
    disciplined (loseAccess s).host = true := by
  obtain ⟨script, vs, k, e, rfl | rfl⟩ := loseAccess_eq s <;> rw [e]
  · exact h
  · exact disciplined_tail h

theorem keepsProtocol_of_not_busy {s : State} (h : disciplined s.host = true) (hb : s.busy = false) :
    s.KeepsProtocol := by
  refine ⟨h, fun hbusy => ?_⟩
  rw [hb] at hbusy
  cases hbusy

/-- While a command is pending a polling host reads STATUS at most, and goes on polling. -/
theorem hostTurn_of_polling {s : State} (hb : s.busy = true) (h : startsWithSync s.host = true) :
    hostTurn s = s ∨ hostTurn s = recordRead (statusWord s) s := by
  obtain ⟨-, e⟩ | ⟨w, off, rest, hh, -⟩ | ⟨w, off, v, rest, hh, -⟩ | ⟨rest, -, e⟩ := hostTurn_cases s
  · exact .inl e
  · rw [hh] at h; cases h
  · rw [hh] at h; cases h
  · right
    rw [e, syncOnce_statusWord, if_pos hb]

/-- An idle host turn takes the next statement off the script, records no E_BUSY and draws no free value. -/
theorem hostTurn_of_idle {s : State} (hb : s.busy = false) :
    (hostTurn s).host = s.host.tail ∧ RecordsNoBusy s (hostTurn s) ∧ (hostTurn s).draws = s.draws := by
  obtain ⟨hh, e⟩ | ⟨w, off, rest, hh, e⟩ | ⟨w, off, v, rest, hh, e⟩ | ⟨rest, hh, e⟩ := hostTurn_cases s <;> rw [e, hh]
  · exact ⟨rfl, (ErrorKept.refl s).recordsNoBusy, rfl⟩
  · obtain ⟨-, hhost, -, hdraws⟩ := outsideKept_memRead (s := { s with host := rest }) hb w off
    exact ⟨hhost, recordsNoBusy_memRead (s := { s with host := rest }) hb w off, hdraws⟩
  · obtain ⟨-, hhost, -, hdraws⟩ := outsideKept_memWrite w off v { s with host := rest }
    exact ⟨hhost, recordsNoBusy_memWrite (s := { s with host := rest }) hb w off v, hdraws⟩
  · rw [syncOnce_statusWord, hb]
    exact ⟨rfl, (ErrorKept.refl s).recordsNoBusy, rfl⟩

/-- From an idle block only a CMD write sets BUSY, and a `sync` follows it. -/
theorem keepsProtocol_hostTurn_of_idle {s : State} (h : disciplined s.host = true) (hb : s.busy = false) :
    (hostTurn s).KeepsProtocol := by
  obtain ⟨hhost, -, -⟩ := hostTurn_of_idle hb
  rw [State.KeepsProtocol, hhost]
  refine ⟨disciplined_tail h, fun hbusy => ?_⟩
  obtain ⟨v, rest, hh, -⟩ := hostTurn_sets_busy hb hbusy
  rw [hh] at h ⊢
  exact startsWithSync_of_cmd_write h

end Sys2Proof.Machine

/-! ### The obligations -/

namespace Sys2Proof.ProtocolProofs

open Sys2Proof.Machine Sys2Proof.Spec

/-- Settles O52: the engine's turn and reset leave BUSY = 0, a host turn with a command pending only polls, and an idle
one can neither meet BUSY nor leave it set without a `sync` next. -/
theorem syncDisciplineAvoidsBusy : Obligations.SyncDisciplineAvoidsBusy := by
  intro s t ⟨hd, hp⟩ hs
  obtain ⟨-, he⟩ | ⟨-, rfl⟩ | ⟨hn, rfl⟩ | ⟨hn, rfl⟩ := step_cases hs
  · obtain ⟨-, hhost, -, hdraws⟩ := outsideKept_engineTurn he
    exact ⟨keepsProtocol_of_not_busy (hhost ▸ hd) (engineTurn_not_busy he),
      recordsNoBusy_engineTurn (s := dropTurn s) he, .inr hdraws⟩
  · cases hb : s.busy with
    | true =>
      obtain e | e := hostTurn_of_polling (s := dropTurn s) hb (hp hb) <;> rw [e]
      · exact ⟨⟨hd, hp⟩, (ErrorKept.refl s).recordsNoBusy, .inr rfl⟩
      · exact ⟨⟨hd, hp⟩, (ErrorKept.refl s).recordsNoBusy, .inr rfl⟩
    | false =>
      obtain ⟨-, hrec, hdraws⟩ := hostTurn_of_idle (s := dropTurn s) hb
      exact ⟨keepsProtocol_hostTurn_of_idle (s := dropTurn s) hd hb, hrec, .inr hdraws⟩
  · exact ⟨keepsProtocol_of_not_busy hd rfl, recordsNoBusy_of_not_err rfl, .inl (resetNext_of_nextTurn (.inl hn))⟩
  · exact ⟨keepsProtocol_of_not_busy (disciplined_loseAccess (s := dropTurn s) hd) rfl, recordsNoBusy_of_not_err rfl,
      .inl (resetNext_of_nextTurn (.inr hn))⟩

/-- Settles O40: STATUS, CFG and CMD are the registers that read exactly, and every other read is drawn. -/
theorem busyDataReadsAreFree : Obligations.BusyDataReadsAreFree := by
  refine fun s hb => ⟨fun r h1 h2 h3 => memRead_busy hb (Loc.readsExactly_of_ne h1 h2 h3),
    memRead_of_readsExactly (r := .status) rfl s, ?_, ?_, memRead_of_readsExactly (r := .cmd) rfl s⟩
  · exact (congrArg (BitVec.toNat ·.1) (memRead_of_readsExactly (r := .cfg) rfl s)).trans (cfgWord_toNat s)
  · exact congrArg Prod.snd (memRead_of_readsExactly (r := .cfg) rfl s)

/-- Settles O50: the host turns keep the block and lead to the engine's turn, which leaves BUSY = 0. -/
theorem pendingCommandRunsAfterItsLatency : Obligations.PendingCommandRunsAfterItsLatency := by
  intro s hb hhost
  obtain ⟨u, hu, hk, hn⟩ := exists_run_to_engineNext s.sched hb rfl hhost
  obtain ⟨v, hv⟩ := step_next u
  exact ⟨u, v, hu, hk, hn, hv, engineTurn_not_busy ((step_of_engineNext hn).symm.trans hv), core_run_snoc hu hv⟩

/-- Settles O51: the first write issues its word; the second meets BUSY = 1, or the idle block an engine step left. -/
theorem secondCommandIsLostOrAccepted : Obligations.SecondCommandIsLostOrAccepted := by
  intro s a b rest sch hb herr hh
  refine ⟨fun hs => ?_, fun hs => ?_⟩ <;>
    obtain ⟨u, h1, hbusy, hpend, hcmd, herr1, hsched, hhost⟩ := step_of_cmd_write_idle hs hh hb
  · have h2 := step_of_cmd_write_busy hsched hhost hbusy
    have hcode : (refusedAccess { u with sched := sch, host := rest } 6).errcode = 6 := by
      simp [refusedAccess, herr1, herr]
    exact ⟨_, core_run_snoc (core_run_succ 0 s u h1) h2, hbusy, hpend, hcmd, rfl, hcode⟩
  · have hn : engineNext u := ⟨hbusy, .inr ⟨_, hsched⟩⟩
    obtain ⟨v, h2⟩ := step_next u
    have he := (step_of_engineNext hn).symm.trans h2
    obtain ⟨hsched2, hhost2, -, -⟩ := outsideKept_engineTurn he
    rw [dropTurn_sched, hsched] at hsched2
    rw [dropTurn_host, hhost] at hhost2
    obtain ⟨t, h3, hbusy3, hpend3, hcmd3, -⟩ := step_of_cmd_write_idle hsched2 hhost2 (engineTurn_not_busy he)
    exact ⟨t, core_run_snoc (core_run_snoc (core_run_succ 0 s u h1) h2) h3, hbusy3, hpend3, hcmd3⟩

/-- Settles O31: reset's values do not look at the state before, and a lost access is outside the block. -/
theorem resetGivesStatedValues : Obligations.ResetGivesStatedValues := by
  refine ⟨⟨rfl, rfl, rfl, rfl, rfl, rfl, rfl, rfl⟩, fun s => ⟨⟨rfl, rfl, rfl, rfl, rfl, rfl, rfl, rfl⟩, ?_⟩⟩
  obtain ⟨script, vs, k, e, -⟩ := loseAccess_eq s
  rw [e]

/-- Settles O32: the draw number is the count when reset applies, after that of a lost read. -/
theorem resetDrawsBuffersAnew : Obligations.ResetDrawsBuffersAnew := by
  intro s h
  obtain ⟨u, hs, hsched, hdraws⟩ := step_of_resetNext h
  refine ⟨applyReset u, u.draws, hs, hdraws, Nat.lt_succ_self _, by rw [← hsched]; rfl,
    drawnSb_getElem _, drawnLb_getElem _, drawnRp_getElem _, drawnSp_getElem _⟩

end Sys2Proof.ProtocolProofs
end
